-- ==== Sys2Proof/Word.lean ====
section
/-! DEFINITION. The machine's word and byte, and the widths an access can have (92_eei_decisions.md D2, D6). -/

namespace Sys2Proof

/-- A word: 32 bits, bit 0 the least significant (rules R3, R8; the size is the spec's decision D2). Addresses, physical
and virtual, are words while they are computed. -/
abbrev Word := BitVec 32

/-- A byte: 8 bits, the unit memory is addressed in (decision D2). -/
abbrev Byte := BitVec 8

/-- The width of one memory access (rule R66: 1, 2 or 4 bytes). -/
inductive Width where
  | byte
  | half
  | word
deriving DecidableEq, Repr, Inhabited

/-- The number of bytes of an access (rule R66). -/
def Width.bytes : Width → Nat
  | .byte => 1
  | .half => 2
  | .word => 4

end Sys2Proof
end

