-- ==== Sys2Proof/Syntax.lean ====
section
/-! DEFINITION. The abstract instructions of 30_encoding.md rule R81 (one constructor per row of opcode_table.json), the two
abstract memory accesses LOAD and STORE of rule R83, and the operation a DECODE row names. -/

namespace Sys2Proof

/-- The CP15 register words an access names (rules R81, R82): R1, the two halves of R2, R8 (Random), R10 (Index). -/
inductive Cp15Reg where
  | r1
  | entryHi
  | entryLo
  | r8
  | r10
deriving DecidableEq, Repr, Inhabited

/-- The seven instructions of rule R81: one constructor per row of opcode_table.json. -/
inductive Instr where
  /-- TLB-Write-Index (rule R101). -/
  | tlbwi
  /-- TLB-Write-Random (rule R102). -/
  | tlbwr
  /-- TLB-Read (rule R103). -/
  | tlbr
  /-- TLB-Probe (rule R104). -/
  | tlbp
  /-- TLB-Clear (rule R105). -/
  | tlbclr
  /-- CP15READ reg: read of a CP15 register word (rule R106). -/
  | cp15read (reg : Cp15Reg)
  /-- CP15WRITE reg, w: write of a CP15 register word, w supplied by CORE (rule R107). -/
  | cp15write (reg : Cp15Reg) (w : Word)
deriving DecidableEq, Repr, Inhabited

/-- What an instruction word stands for (rules R81, R83, R91): one of the seven instructions; an instruction of CORE that makes one
memory request, in the spec's own spelling LOAD n, va and STORE n, va, v; or an instruction of CORE whose requests, any number of
them, CORE makes when it executes. -/
inductive Term where
  | instr (i : Instr)
  | load (n : Width) (va : Word)
  | store (n : Width) (va v : Word)
  | core
deriving DecidableEq, Repr, Inhabited

/-- Where an operand of LOAD or STORE comes from (notes/assumptions/10.md): the row of DECODE gives it, or CORE supplies it when the
instruction executes, as it does from its registers. -/
inductive Operand where
  | given (w : Word)
  | core
deriving DecidableEq, Repr, Inhabited

/-- The value of an operand, CORE supplying the word given. -/
def Operand.value (supplied : Word) : Operand → Word
  | .given w => w
  | .core => supplied

/-- What DECODE says of an instruction word: a term whose operands that CORE supplies are still to come. The source word of
CP15WRITE is one of them (rule R107; opcode_table.json, field w). -/
inductive Op where
  | tlbwi
  | tlbwr
  | tlbr
  | tlbp
  | tlbclr
  | cp15read (reg : Cp15Reg)
  | cp15write (reg : Cp15Reg)
  | load (n : Width) (va : Operand)
  | store (n : Width) (va v : Operand)
  | core
deriving DecidableEq, Repr, Inhabited

/-- The operation of an instruction: the instruction less the source word. -/
def Instr.op : Instr → Op
  | .tlbwi => .tlbwi
  | .tlbwr => .tlbwr
  | .tlbr => .tlbr
  | .tlbp => .tlbp
  | .tlbclr => .tlbclr
  | .cp15read reg => .cp15read reg
  | .cp15write reg _ => .cp15write reg

/-- The word CORE supplies with an instruction: the w of CP15WRITE, zero for an instruction that takes none. -/
def Instr.source : Instr → Word
  | .cp15write _ w => w
  | _ => 0

end Sys2Proof
end

