-- ==== Sys2Proof/Config.lean ====
section
/-! DEFINITION. The open parameters of the spec (00_scope.md section 4; 92_eei_decisions.md, last list) as plain data, the
fixed constants of rule R7, and the one free value, from which every draw of the spec is made. -/

namespace Sys2Proof

/-- First address outside the reserved address space (rules R7, R42). -/
def reservedTop : Nat := 0x8000

/-- First address of installed RAM (rules R7, R46). -/
def ramBase : Nat := 0x7000

/-- The Page Table magic number (rules R7, R122). -/
def pgTblMagic : Nat := 0x2A

/-- The two classes of processor operating mode (rule R10). -/
inductive Mode where
  | user
  | privileged
deriving DecidableEq, Repr, Inhabited

/-- Parameter BYTE_ORDER (rule R64, decision D4). -/
inductive ByteOrder where
  | little
  | big
deriving DecidableEq, Repr, Inhabited

/-- Parameter R2_VOLATILITY (rule R16, decision D11). -/
inductive R2Volatility where
  | havocOnTranslate
  | stable
deriving DecidableEq, Repr, Inhabited

/-- Parameter MODE (rule R11, decision D28): the mode is User exactly when the masked CPSR is one of the listed values. With a
mask of all ones every function from CPSR to the two modes is one of these. -/
structure ModeMap where
  mask  : Word
  users : List Word
deriving DecidableEq, Repr, Inhabited

/-- Parameter PTE_LAYOUT.Hi (rule R84): the lowest bit of the 20-bit VPN20 and of the 7-bit ASID. -/
structure HiLayout where
  vpn20 : Nat
  asid  : Nat
deriving DecidableEq, Repr, Inhabited

/-- Parameter PTE_LAYOUT.Lo (rule R85): the lowest bit of the 20-bit PFN and the bits of D, V and G. -/
structure LoLayout where
  pfn : Nat
  d   : Nat
  v   : Nat
  g   : Nat
deriving DecidableEq, Repr, Inhabited

/-- Parameter INDEX_LAYOUT (rule R86): the lowest bit of the 6-bit TLB-Index and the bit of P. -/
structure IndexLayout where
  tlbIndex : Nat
  p        : Nat
deriving DecidableEq, Repr, Inhabited

/-- The three segments (rule R50). -/
inductive Segment where
  | kseg0
  | useg2
  | useg3
deriving DecidableEq, Repr, Inhabited

/-- Parameter SEGTBL (rule R123, decision D22): the physical address of the word that holds the Page Table address of an ASID
and a segment. `rows base` is the suggested default; `listed as` gives the 384 addresses one by one (three an ASID, in the
order Kseg0, Useg2, Useg3), which is every function there is. -/
inductive SegTable where
  | rows (base : Nat)
  | listed (addresses : List Nat)
deriving DecidableEq, Repr, Inhabited

/-- What answers in a range of the Bus functions (rules R43, R44): ROM code, or device registers. -/
inductive BusKind where
  | rom
  | device
deriving DecidableEq, Repr, Inhabited

/-- A range of physical addresses below RAM that answers on the bus. -/
structure BusRange where
  base : Nat
  size : Nat
  kind : BusKind
deriving DecidableEq, Repr, Inhabited

/-- One row of parameter DECODE (rules R80, R91, decision D19): an instruction word and what it stands for. -/
structure DecodeRow where
  word : Word
  op   : Op
deriving DecidableEq, Repr, Inhabited

namespace Machine

/-- What CORE does by itself, which no rule describes (rules R24, R33, R153; decision D32): it puts a value into CPSR, into the
program counter, into the word it supplies to CP15WRITE and STORE, or into the address it supplies to LOAD and STORE. -/
inductive CoreMove where
  | cpsr (w : Word)
  | pc (w : Word)
  | source (w : Word)
  | address (w : Word)
deriving DecidableEq, Repr, Inhabited

/-- One memory request of an instruction of CORE (rule R24, `(va, kind, n)`; the mode is the one in force): a read or a further fetch,
whose word is handed to CORE, or a write. -/
inductive Request where
  | load (n : Width) (va : Word)
  | fetch (n : Width) (va : Word)
  | store (n : Width) (va v : Word)
deriving DecidableEq, Repr, Inhabited

/-- What CORE supplies to one execution of an instruction (decision D32; DESIGN CHOICE, notes/assumptions/32.md). -/
structure InstrRun where
  /-- Whether the instruction has its effect: false for a conditional one whose condition fails. -/
  holds    : Bool := true
  /-- The memory requests of an instruction of CORE, in the order CORE makes them (decision D6). -/
  requests : List Request := []
  /-- How many of the requests made before one that raises stand (91_not_in_source.md N22). -/
  stands   : Nat := 0
deriving DecidableEq, Repr, Inhabited

/-- One entry of the parameter CORE of a run (decision D32): a move it makes by itself, or the execution of the instruction at the pc
to its end. -/
inductive CoreInput where
  | move (m : CoreMove)
  | proceed (r : InstrRun)
deriving DecidableEq, Repr, Inhabited

end Machine

/-- The open parameters of the spec, in one record. A state carries the record that its reset latched (rules R25, R170), and no
step changes it, so a claim about every state is a claim about every choice of the parameters. -/
structure Config where
  /-- TLBSIZE (rule R4): the number of slots the next reset gives the TLB. -/
  tlbSize    : Nat
  /-- RAMTOP (rule R5), exclusive (decision D3). -/
  ramTop     : Nat
  /-- BYTE_ORDER (rule R64). -/
  byteOrder  : ByteOrder
  /-- R2_VOLATILITY (rule R16). -/
  volatility : R2Volatility
  /-- MODE (rule R11). -/
  modeMap    : ModeMap
  /-- PTE_LAYOUT (rules R84, R85). -/
  hi         : HiLayout
  lo         : LoLayout
  /-- INDEX_LAYOUT (rule R86). -/
  index      : IndexLayout
  /-- RANDOM_LAYOUT (rule R87): the lowest bit of the 6-bit TLB-Index of Random. -/
  random     : Nat
  /-- R1_LAYOUT (rule R88): the bit of M. -/
  m          : Nat
  /-- SEGTBL (rule R123). -/
  segTable   : SegTable
  /-- The platform below RAM (rules R44, R47, decision D27): `none` where no platform model is given, else the ranges that
  are identified there. -/
  bus        : Option (List BusRange)
  /-- DECODE (rule R80). -/
  decode     : List DecodeRow
  /-- The instruction length of CORE (rule R65, decision D5). -/
  insnWidth  : Width
  /-- Where CORE begins execution, and the CPSR it begins with (rule R33). -/
  resetPc    : Word
  resetCpsr  : Word
  /-- CORE (rule R24, decision D32), what the model holds of it beside its registers: what it does in the run that the reset begins, the
  first first. -/
  coreRun    : List Machine.CoreInput
deriving DecidableEq, Repr, Inhabited

/-- DESIGN CHOICE (notes/assumptions/2.md): stand-in instruction words for DECODE in the standard configuration. The source
gives no encoding; these words are no encoding of the hardware. The last seven stand for instructions of CORE, their operands
supplied by CORE. -/
def Config.standardDecode : List DecodeRow :=
  [ ⟨0x01, .tlbwi⟩, ⟨0x02, .tlbwr⟩, ⟨0x03, .tlbr⟩, ⟨0x04, .tlbp⟩, ⟨0x05, .tlbclr⟩,
    ⟨0x11, .cp15read .r1⟩, ⟨0x12, .cp15read .entryHi⟩, ⟨0x13, .cp15read .entryLo⟩,
    ⟨0x14, .cp15read .r8⟩, ⟨0x15, .cp15read .r10⟩,
    ⟨0x21, .cp15write .r1⟩, ⟨0x22, .cp15write .entryHi⟩, ⟨0x23, .cp15write .entryLo⟩,
    ⟨0x24, .cp15write .r8⟩, ⟨0x25, .cp15write .r10⟩ ] ++
  [ ⟨0x30, .core⟩, ⟨0x31, .load .word .core⟩, ⟨0x32, .load .half .core⟩, ⟨0x33, .load .byte .core⟩,
    ⟨0x34, .store .word .core .core⟩, ⟨0x35, .store .half .core .core⟩, ⟨0x36, .store .byte .core .core⟩ ]

/-- The configuration State.reset starts with. The layouts are the suggested defaults of rules R84 to R88 and R123 (PRESUMED,
notes/assumptions/4.md), TLBSIZE, RAMTOP and SEGTBL_BASE are those of the spec's set-ups T and F (DESIGN CHOICE,
notes/assumptions/1.md), DECODE is a stand-in (notes/assumptions/2.md), and so are MODE, the first pc and the first CPSR (DESIGN CHOICE,
notes/assumptions/7.md); CORE makes no move of its own (DESIGN CHOICE, notes/assumptions/31.md). -/
def Config.standard : Config where
  tlbSize := 8
  ramTop := 0x100000
  byteOrder := .little
  volatility := .havocOnTranslate
  modeMap := { mask := 1, users := [1] }
  hi := { vpn20 := 12, asid := 5 }
  lo := { pfn := 12, d := 10, v := 9, g := 8 }
  index := { tlbIndex := 8, p := 31 }
  random := 8
  m := 0
  segTable := .rows 0x9000
  bus := none
  decode := Config.standardDecode
  insnWidth := .word
  resetPc := 0x7000
  resetCpsr := 0
  coreRun := []

/-- The free value: what the n-th draw of a run gives (rule R9, `draw(S)`: "a value of the set S chosen by nobody"). It has no
body, so nothing can be proved of any value of it (notes/assumptions/3.md). -/
opaque Config.free : Nat → Nat

end Sys2Proof
end

