-- ==== Sys2Proof/WellFormed.lean ====
section
/-! DEFINITION. The checks on the parameters that the spec states (TLBSIZE, RAMTOP, the register layouts, the Segment Table,
DECODE), and the check that an instruction has a word. -/

namespace Sys2Proof

/-- Two bit ranges, each a lowest bit and a width, share no bit. -/
def rangesDisjoint (a b : Nat × Nat) : Bool :=
  decide (a.1 + a.2 ≤ b.1) || decide (b.1 + b.2 ≤ a.1)

/-- The bit ranges lie inside a 32-bit word and are disjoint (rules R84 to R88). -/
def rangesFit : List (Nat × Nat) → Bool
  | [] => true
  | a :: rest => decide (a.1 + a.2 ≤ 32) && rest.all (rangesDisjoint a) && rangesFit rest

/-- Rule R4: 4 <= TLBSIZE <= 64. -/
def Config.tlbSizeOk (c : Config) : Bool := decide (4 ≤ c.tlbSize) && decide (c.tlbSize ≤ 64)

/-- Rule R5: RAMTOP > 0x0000.8000, a multiple of 4096, inside the 32-bit physical address space. -/
def Config.ramTopOk (c : Config) : Bool :=
  decide (reservedTop < c.ramTop) && decide (c.ramTop % 4096 = 0) && decide (c.ramTop ≤ 2 ^ 32)

/-- Rules R84 to R88: each register's fields are disjoint ranges of its word. -/
def Config.layoutsOk (c : Config) : Bool :=
  rangesFit [(c.hi.vpn20, 20), (c.hi.asid, 7)] &&
  rangesFit [(c.lo.pfn, 20), (c.lo.d, 1), (c.lo.v, 1), (c.lo.g, 1)] &&
  rangesFit [(c.index.tlbIndex, 6), (c.index.p, 1)] &&
  rangesFit [(c.random, 6)] && rangesFit [(c.m, 1)]

/-- Rule R123: SEGTBL gives word addresses, one for each of the 128 x 3 rows. -/
def Config.segTableOk (c : Config) : Bool :=
  match c.segTable with
  | .rows base => decide (base % 4 = 0)
  | .listed as => decide (as.length = 384) && as.all (fun a => decide (a % 4 = 0))

/-- Rule R44: the ranges of the platform model lie below RAM. -/
def Config.busOk (c : Config) : Bool :=
  match c.bus with
  | none => true
  | some rs => rs.all (fun r => decide (r.base + r.size ≤ ramBase))

/-- Decision D19: DECODE is a map, so no instruction word has two rows, and every word fits the instruction length. -/
def Config.decodeOk (c : Config) : Bool :=
  decide ((c.decode.map (·.word)).Nodup) &&
  c.decode.all (fun r => decide (r.word.toNat < 2 ^ (8 * c.insnWidth.bytes)))

/-- The parameters are as the spec restricts them. -/
def Config.wf (c : Config) : Bool :=
  c.tlbSizeOk && c.ramTopOk && c.layoutsOk && c.segTableOk && c.busOk && c.decodeOk

/-- DECODE has a word for the instruction. -/
def Instr.wellFormed (table : List DecodeRow) (i : Instr) : Bool :=
  table.any (fun r => decide (r.op = i.op))

end Sys2Proof
end

