-- ==== Sys2Proof/Decode.lean ====
section
/-! DEFINITION. DECODE (30_encoding.md rules R80, R91; decision D19): total on instruction words, a word with no row rejected by
name; the assembly of a word from its bytes by BYTE_ORDER; and after it the encoder that reads the same table backwards. -/

namespace Sys2Proof

/-- What a decoding gives: a term of CORE or of rule R81, or the rejection of rule R91. -/
inductive Decoded where
  | term (t : Term)
  | undecodable
deriving DecidableEq, Repr, Inhabited

/-- The term of an operation, with what CORE supplies: the source word of CP15WRITE and STORE, and the address of LOAD and STORE
(rules R83, R107). -/
def Op.withOperands (src addr : Word) : Op → Term
  | .tlbwi => .instr .tlbwi
  | .tlbwr => .instr .tlbwr
  | .tlbr => .instr .tlbr
  | .tlbp => .instr .tlbp
  | .tlbclr => .instr .tlbclr
  | .cp15read reg => .instr (.cp15read reg)
  | .cp15write reg => .instr (.cp15write reg src)
  | .load n va => .load n (va.value addr)
  | .store n va v => .store n (va.value addr) (v.value src)
  | .core => .core

/-- DECODE (rule R91): the term of an instruction word, or its rejection. The word alone says which term it is: no mode and no
mode bit changes the decoding (DESIGN CHOICE, notes/assumptions/30.md; rule R80 leaves it open). -/
def decode (table : List DecodeRow) (insn src addr : Word) : Decoded :=
  match table.find? (fun r => decide (r.word = insn)) with
  | some r => .term (r.op.withOperands src addr)
  | none => .undecodable

/-- The number a list of bytes makes, the first byte least significant. -/
def littleNat : List Byte → Nat
  | [] => 0
  | b :: bs => b.toNat + 256 * littleNat bs

/-- The bytes of a number, n of them, the least significant first. -/
def littleBytes : Nat → Nat → List Byte
  | 0, _ => []
  | n + 1, v => BitVec.ofNat 8 v :: littleBytes n (v / 256)

/-- The word whose bytes, lowest address first, are given (rule R64, parameter BYTE_ORDER). -/
def ByteOrder.assemble (o : ByteOrder) (bs : List Byte) : Word :=
  match o with
  | .little => BitVec.ofNat 32 (littleNat bs)
  | .big => BitVec.ofNat 32 (littleNat bs.reverse)

/-- The n low bytes of a word, lowest address first (rule R64, parameter BYTE_ORDER). -/
def ByteOrder.split (o : ByteOrder) (n : Nat) (v : Word) : List Byte :=
  match o with
  | .little => littleBytes n v.toNat
  | .big => (littleBytes n v.toNat).reverse

/-- The decoder on bytes: any bytes are decoded or rejected. -/
def decodeBytes (c : Config) (bs : List Byte) (src addr : Word) : Decoded :=
  if bs.length = c.insnWidth.bytes then decode c.decode (c.byteOrder.assemble bs) src addr else .undecodable

/-- The encoder: the instruction word of an instruction, and the source word CORE supplies with it. -/
def encode (table : List DecodeRow) (i : Instr) : Option (Word × Word) :=
  match table.find? (fun r => decide (r.op = i.op)) with
  | some r => some (r.word, i.source)
  | none => none

/-- The instruction of a table word, in the standard configuration: bits 31 to 0 are the instruction word, bits 63 to 32 the
source word that CORE supplies (notes/assumptions/2.md). -/
def decodeTableWord (nbits w : Nat) : Option Instr :=
  if w % 2 ^ nbits < 2 ^ 64 then
    match decode Config.standard.decode (BitVec.ofNat 32 (w % 2 ^ nbits)) (BitVec.ofNat 32 (w % 2 ^ nbits / 2 ^ 32)) 0 with
    | .term (.instr i) => some i
    | _ => none
  else none

end Sys2Proof
end

