-- ==== Sys2Proof/Machine/State.lean ====
section
/-! DEFINITION. The state of the machine (10_state.md), the reasons a step can stop, and the state after reset. -/

namespace Sys2Proof.Machine

/-- The EntryHi half of a Page Table Entry (rule R14). -/
structure EntryHi where
  vpn20 : BitVec 20
  asid  : BitVec 7
deriving DecidableEq, Repr, Inhabited

/-- The EntryLo half of a Page Table Entry (rule R15): the frame number and the flags Dirty, Valid, Global. -/
structure EntryLo where
  pfn : BitVec 20
  d   : Bool
  v   : Bool
  g   : Bool
deriving DecidableEq, Repr, Inhabited

/-- A Page Table Entry: the contents of CP15.R2, of a TLB slot and of a Page Table row (rules R13, R20, R120). -/
structure Pte where
  hi : EntryHi
  lo : EntryLo
deriving DecidableEq, Repr, Inhabited

/-- The Index register, CP15.R10 (rule R17). -/
structure Index where
  tlbIndex : BitVec 6
  p        : Bool
deriving DecidableEq, Repr, Inhabited

/-- The kinds of access (rule R63). -/
inductive Kind where
  | read
  | write
  | fetch
deriving DecidableEq, Repr, Inhabited

/-- The seven exceptions (rule R140). They are told apart by name: the source gives no codes (rule R141). -/
inductive Exc where
  | addressError
  | busError
  | tlbMiss
  | tlbInvalid
  | tlbModification
  | badPgTbl
  | pteMiss
deriving DecidableEq, Repr, Inhabited

/-- An exception with what the model knows of it (rules R142, R145, `trapped(E, va, kind)`): the address and kind of the access,
and for BUSERROR the physical address (rule R47, `raise BUSERROR(pa)`). -/
structure Trap where
  exc  : Exc
  va   : Word
  kind : Kind
  pa   : Option Word
deriving DecidableEq, Repr, Inhabited

/-- Physical memory (rule R23): the bytes that something has written, at strictly rising physical addresses. An address that is
not listed holds no value (rule R32). -/
abbrev Memory := List Host.Cell

/-- The addresses of a memory rise strictly: the one canonical form of its contents. -/
def Memory.wf : Memory → Bool
  | [] => true
  | c :: rest => rest.all (fun e => decide (c.1 < e.1)) && Memory.wf rest

/-- The state of the machine. -/
structure State where
  /-- The parameters the last reset latched (rules R25, R170). No step changes them. -/
  cfg     : Config
  /-- The program counter of CORE: the address of the instruction to execute (rules R9, R148). -/
  pc      : Word
  /-- The Program Status Register (rule R11). -/
  cpsr    : Word
  /-- CP15.R1.M (rule R12): 1 is virtual addressing mode. -/
  m       : Bool
  /-- CP15.R2, EntryHi and EntryLo (rules R13 to R15). EntryHi.ASID is the current ASID. -/
  r2      : Pte
  /-- CP15.R10, Index (rule R17). -/
  index   : Index
  /-- CP15.R8, Random.TLBIndex (rules R18, R19), as it was when it was last observed. -/
  random  : BitVec 6
  /-- The TLB (rule R20). Its length is TLBSIZE. -/
  tlb     : List Pte
  /-- Physical memory (rule R23). -/
  mem     : Memory
  /-- The exception the machine has stopped in, if any (rule R145). -/
  trap    : Option Trap
  /-- The words handed to CORE by CP15READ and by reads of memory, the newest first (rules R24, R106). -/
  results : List Word
  /-- The word CORE supplies to CP15WRITE and STORE (rules R83, R107). -/
  source  : Word
  /-- The address CORE supplies to LOAD and STORE (rules R24, R83). -/
  address : Word
  /-- What CORE does in the rest of the run, the next first (rule R24, decision D32). Where it is empty, CORE executes instructions and
  makes no move of its own. -/
  inputs  : List CoreInput
  /-- The number of draws made so far (rule R9): the model's own. -/
  draws   : Nat
deriving DecidableEq, Repr, Inhabited

/-- TLBSIZE, the number of slots the TLB has since the last reset (rules R4, R170). -/
def State.tlbSize (s : State) : Nat := s.tlb.length

/-- Why the machine stops with a fault. -/
inductive Fault where
  /-- Raised by step in a state that an exception ended: the state `trapped(E, va, kind)` of rule R145, terminal and never a good
  end. Safe: the machine goes on in a handler that no source describes. -/
  | trapped (t : Trap)
deriving DecidableEq, Repr, Inhabited

/-- Why the model gives a step no meaning. Each is safe: the machine may go on where the model stops. -/
inductive Refusal where
  /-- Raised by exec's arm of an instruction that has no meaning yet. -/
  | notModelled (mnemonic : String)
  /-- Raised by step for an instruction word that DECODE gives no term (rule R91). -/
  | undecodable
  /-- Raised by an access whose address is not a multiple of its width (rule R65). -/
  | misaligned
  /-- Raised by a User-mode access that translates into the reserved address space (rule R61). -/
  | userTranslationIntoReserved
  /-- Raised by the seven instructions in User mode (rule R100 e). -/
  | cp15InUserMode
  /-- Raised by TLBWI and TLBR when Index.TLBIndex is no slot (rules R101, R103). -/
  | tlbIndexOutOfRange
  /-- Raised by CP15WRITE of R8 (rule R107). -/
  | writeToReadOnlyRandom
  /-- Raised by the refill when the Segment Table row is outside identified memory (rule R130). -/
  | refillReadOutsideMemory
  /-- Raised by a read of a byte of memory that nothing has written since reset (rule R32). -/
  | unwrittenMemory
  /-- Raised by an access below RAM when no platform model is given (rules R44, R67). -/
  | busFunctions
  /-- Raised by an access to a device register, whose effect no rule gives (rules R67, R155). -/
  | deviceAccess
  /-- Raised by a write to ROM, whose effect no rule gives (rule R44). -/
  | romWrite
deriving DecidableEq, Repr, Inhabited

/-- The outcome of an access: it completes with a value, it raises an exception, or the spec gives it no meaning. -/
inductive Res (α : Type) where
  | ok (a : α) (s : State)
  | raised (t : Trap) (s : State)
  | refused (r : Refusal)
deriving DecidableEq, Repr, Inhabited

/-- A Page Table Entry of draws: each field any value (rule R9). It uses six draws from the n-th on. -/
def freePte (n : Nat) : Pte where
  hi := { vpn20 := BitVec.ofNat 20 (Config.free n), asid := BitVec.ofNat 7 (Config.free (n + 1)) }
  lo := { pfn := BitVec.ofNat 20 (Config.free (n + 2)), d := decide (Config.free (n + 3) % 2 = 1),
          v := decide (Config.free (n + 4) % 2 = 1), g := decide (Config.free (n + 5) % 2 = 1) }

/-- The state after a reset that latches the configuration c (rules R30 to R33, R170): M = 0, Random.TLBIndex = TLBSIZE - 1, pc
and CPSR as CORE begins, no byte of memory written; every register of the memory subsystem to which the spec gives no reset value is a
draw (rule R32), made from the seed-th draw on (notes/assumptions/5.md; of memory notes/assumptions/6.md). A ROM range of the platform
model too holds no byte then, on which the spec is silent (DESIGN CHOICE, notes/assumptions/33.md). Of CORE, which is open
(decision D32), the spec gives no value: the word and the address it supplies start at 0, no word has been handed to it, and what it
does in the run is the configuration's (DESIGN CHOICE, notes/assumptions/31.md). -/
def State.resetWith (c : Config) (seed : Nat) : State where
  cfg := c
  pc := c.resetPc
  cpsr := c.resetCpsr
  m := false
  r2 := freePte seed
  index := { tlbIndex := BitVec.ofNat 6 (Config.free (seed + 6)), p := decide (Config.free (seed + 7) % 2 = 1) }
  random := BitVec.ofNat 6 (c.tlbSize - 1)
  tlb := (List.range c.tlbSize).map (fun i => freePte (seed + 8 + 6 * i))
  mem := []
  trap := none
  results := []
  source := 0
  address := 0
  inputs := c.coreRun
  draws := seed + 8 + 6 * c.tlbSize

/-- The reset event (rules R170, R171): the configured parameters are latched and nothing of the former state survives, but that
the draws go on. -/
def State.resetEvent (c : Config) (s : State) : State := State.resetWith c s.draws

/-- The machine right after reset, in the standard configuration. -/
def State.reset : State := State.resetWith Config.standard 0

end Sys2Proof.Machine
end

