-- ==== Sys2Proof/Machine/Ops.lean ====
section
/-! DEFINITION. The shared operations: addresses, memory, the bus, draws, the hardware's updates of CP15.R2, Random, taking an
exception and resuming after a refill. -/

namespace Sys2Proof.Machine

/-! ## Addresses (rules R41, R42, R49, R50) -/

/-- `reserved(a)`, rule R42. -/
def reserved (a : Word) : Bool := decide (a.toNat < reservedTop)

/-- `kernelSegment(va)`, rule R50: bit 31 is clear. -/
def kernelSegment (va : Word) : Bool := !va.getLsbD 31

/-- `VPN20 = va[31:12]`, rule R49. -/
def vpn20Of (va : Word) : BitVec 20 := va.extractLsb' 12 20

/-- `Offset = va[11:0]`, rules R41, R49. -/
def offsetOf (va : Word) : BitVec 12 := va.extractLsb' 0 12

/-- `SEGNO = va[31:30]`, rule R49. -/
def segnoOf (va : Word) : BitVec 2 := va.extractLsb' 30 2

/-- `seg(va)`, rule R50. -/
def segmentOf (va : Word) : Segment :=
  if kernelSegment va then .kseg0 else if segnoOf va = 2 then .useg2 else .useg3

/-- The physical address of a frame and an offset, `pa = PFN ‖ Offset`, rules R41, R59. -/
def physicalOf (pfn : BitVec 20) (offset : BitVec 12) : Word := pfn ++ offset

/-! ## The processor mode (rules R10, R11) -/

/-- Parameter MODE applied to a CPSR. -/
def modeOf (mm : ModeMap) (cpsr : Word) : Mode :=
  if mm.users.contains (cpsr &&& mm.mask) then .user else .privileged

/-- The mode in force. -/
def State.mode (s : State) : Mode := modeOf s.cfg.modeMap s.cpsr

/-! ## Memory (rules R23, R46) -/

/-- The byte at an address, none where nothing has written one. -/
def Memory.read : Memory → Nat → Option Byte
  | [], _ => none
  | c :: rest, a => if a = c.1 then some c.2 else Memory.read rest a

/-- Memory after one byte is written. -/
def Memory.write : Memory → Nat → Byte → Memory
  | [], a, b => [(a, b)]
  | c :: rest, a, b =>
    if a < c.1 then (a, b) :: c :: rest
    else if a = c.1 then (a, b) :: rest
    else c :: Memory.write rest a b

/-- The bytes from an address up, none if one of them was never written. -/
def Memory.readBytes (m : Memory) : Nat → Nat → Option (List Byte)
  | _, 0 => some []
  | a, n + 1 =>
    match m.read a, Memory.readBytes m (a + 1) n with
    | some b, some bs => some (b :: bs)
    | _, _ => none

/-- Memory after bytes are written from an address up. -/
def Memory.writeBytes : Memory → Nat → List Byte → Memory
  | m, _, [] => m
  | m, a, b :: bs => Memory.writeBytes (m.write a b) (a + 1) bs

/-! ## The bus (rules R43 to R47) -/

/-- What stands at a physical address. -/
inductive Place where
  | ram
  | rom
  | device
  | nothing
  | unmodelled
deriving DecidableEq, Repr, Inhabited

/-- What stands at a physical address of the Bus functions (rule R44). -/
def busPlace (bus : Option (List BusRange)) (a : Nat) : Place :=
  match bus with
  | none => .unmodelled
  | some rs =>
    match rs.find? (fun r => decide (r.base ≤ a) && decide (a < r.base + r.size)) with
    | none => .nothing
    | some r => match r.kind with
      | .rom => .rom
      | .device => .device

/-- What stands at a physical address (rule R43; `identified` of rule R47 is: not nothing). -/
def placeOf (c : Config) (a : Nat) : Place :=
  if a < ramBase then busPlace c.bus a else if a < c.ramTop then .ram else .nothing

/-- The places of the bytes of an access. -/
def placesOf (c : Config) (a : Nat) : Nat → List Place
  | 0 => []
  | n + 1 => placeOf c a :: placesOf c (a + 1) n

/-- The outcome of a bus access: it is answered, it raises BUSERROR (rule R47), or no rule says what it does. -/
inductive BusResult (α : Type) where
  | ok (a : α)
  | busError
  | refused (r : Refusal)
deriving DecidableEq, Repr, Inhabited

/-- Whether the bytes of a bus access are all answered by plain storage (rules R44, R47, R67). Below RAM the width of the access plays no
part: a ROM range answers a read of every width (DESIGN CHOICE, notes/assumptions/34.md; rule R44 leaves the width open). -/
def busCheck (c : Config) (a n : Nat) (write : Bool) : BusResult Unit :=
  let ps := placesOf c a n
  if ps.contains .nothing then .busError
  else if ps.contains .unmodelled then .refused .busFunctions
  else if ps.contains .device then .refused .deviceAccess
  else if write && ps.contains .rom then .refused .romWrite
  else .ok ()

/-- `PhysRead(pa, n)`, rules R9, R47: the bytes assembled by BYTE_ORDER. -/
def physRead (s : State) (a : Nat) (n : Width) : BusResult Word :=
  match busCheck s.cfg a n.bytes false with
  | .busError => .busError
  | .refused r => .refused r
  | .ok () =>
    match s.mem.readBytes a n.bytes with
    | some bs => .ok (s.cfg.byteOrder.assemble bs)
    | none => .refused .unwrittenMemory

/-- `PhysWrite(pa, n, v)`, rules R9, R47: the n low bytes of v, laid out by BYTE_ORDER. -/
def physWrite (s : State) (a : Nat) (n : Width) (v : Word) : BusResult State :=
  match busCheck s.cfg a n.bytes true with
  | .busError => .busError
  | .refused r => .refused r
  | .ok () => .ok { s with mem := s.mem.writeBytes a (s.cfg.byteOrder.split n.bytes v) }

/-! ## Draws (rule R9) -/

/-- `draw(S)` of a set that is not empty, given as one member and the others: the one member when there are no others, else the one
the free value points at. -/
def pick {α : Type} (n : Nat) (x : α) : List α → α
  | [] => x
  | y :: ys => (x :: y :: ys).getD (Config.free n % (ys.length + 2)) x

/-- EntryLo of draws: it uses four draws from the n-th on. -/
def freeLo (n : Nat) : EntryLo :=
  { pfn := BitVec.ofNat 20 (Config.free n), d := decide (Config.free (n + 1) % 2 = 1),
    v := decide (Config.free (n + 2) % 2 = 1), g := decide (Config.free (n + 3) % 2 = 1) }

/-- EntryLo becomes a draw (rules R16, R107). -/
def State.havocLo (s : State) : State :=
  { s with r2 := { s.r2 with lo := freeLo s.draws }, draws := s.draws + 4 }

/-- EntryHi.VPN20 and EntryLo become draws and EntryHi.ASID stays (rules R16, R130; decision D33). -/
def State.havocR2 (s : State) : State :=
  { s with
    r2 := { hi := { s.r2.hi with vpn20 := BitVec.ofNat 20 (Config.free s.draws) }, lo := freeLo (s.draws + 1) }
    draws := s.draws + 5 }

/-- The hardware's update of CP15.R2 after a translated access (rule R16). -/
def State.afterTranslate (s : State) : State :=
  match s.cfg.volatility with
  | .havocOnTranslate => s.havocR2
  | .stable => s

/-- The hardware's update of EntryLo after a CP15 write of EntryHi (rule R16). -/
def State.afterEntryHiWrite (s : State) : State :=
  match s.cfg.volatility with
  | .havocOnTranslate => s.havocLo
  | .stable => s

/-- The state of a result changes. -/
def Res.mapState {α : Type} (f : State → State) : Res α → Res α
  | .ok a s => .ok a (f s)
  | .raised t s => .raised t (f s)
  | .refused r => .refused r

/-! ## Random (rules R18, R19) -/

/-- Random.TLBIndex after one processor cycle (rule R19). -/
def randomTick (tlbSize : Nat) (r : BitVec 6) : BitVec 6 :=
  if r = 1 then BitVec.ofNat 6 (tlbSize - 1) else r - 1

/-- Random.TLBIndex after some processor cycles. -/
def randomAfter (tlbSize : Nat) : Nat → BitVec 6 → BitVec 6
  | 0, r => r
  | k + 1, r => randomAfter tlbSize k (randomTick tlbSize r)

/-- An observation of Random (rules R19, R31): since the last one any number of cycles has passed, for no rule gives an
instruction's cycles (rule R181), so the value is any of 1 to TLBSIZE - 1. -/
def State.observeRandom (s : State) : State :=
  { s with random := randomAfter s.tlbSize (Config.free s.draws) s.random, draws := s.draws + 1 }

/-! ## Writes that every instruction makes through here -/

/-- A TLB slot is written (rules R101, R102, R128). -/
def State.setSlot (s : State) (i : Nat) (e : Pte) : State := { s with tlb := s.tlb.set i e }

/-- A word is handed to CORE (rules R24, R106). -/
def State.give (s : State) (w : Word) : State := { s with results := w :: s.results }

/-- What CORE does after the instruction it was executing has completed. -/
def afterInstruction : List CoreInput → List CoreInput
  | .proceed _ :: xs => xs
  | xs => xs

/-- An instruction has completed: the pc moves past it, its length being CORE's (rule R24, notes/assumptions/9.md), and CORE goes on to
what it does next. -/
def State.advance (s : State) : State :=
  { s with pc := s.pc + BitVec.ofNat 32 s.cfg.insnWidth.bytes, inputs := afterInstruction s.inputs }

/-! ## Exceptions (rules R143, R145, R148) -/

/-- Taking an exception (rule R145, the minimal model of parameter TRAP): the machine is in the state trapped(E, va, kind). The
instruction has not completed, so the pc is still at it (rule R143; notes/assumptions/11.md). -/
def State.takeException (s : State) (t : Trap) : State := { s with trap := some t }

/-- The return of the BIOS after a refill (rule R148): the pc is the address of the instruction that missed. -/
def State.resume (s : State) (insn : Word) : State := { s with pc := insn }

/-! ## The mode the seven instructions need (rule R100 e, decision D18) -/

/-- The instruction runs in Privileged mode and has no meaning in User mode. -/
def privileged (s : State) (run : Host.Outcome State Fault Refusal) : Host.Outcome State Fault Refusal :=
  match s.mode with
  | .privileged => run
  | .user => .refused .cp15InUserMode

end Sys2Proof.Machine
end

