-- ==== Sys2Proof/Machine/Operands.lean ====
section
/-! DEFINITION. The fields of register words (30_encoding.md rules R84 to R90): a CP15 register as a word, and a word as the
fields of a register, by the layout parameters. -/

namespace Sys2Proof.Machine

/-- The k-bit field of a word whose lowest bit is lo, `w[lo+k-1:lo]` (rule R8). -/
def getField (w : Word) (lo k : Nat) : BitVec k := w.extractLsb' lo k

/-- The word with a k-bit field placed so that its lowest bit is lo (rule R106, "place"). -/
def putField (w : Word) (lo : Nat) {k : Nat} (v : BitVec k) : Word :=
  (w &&& ~~~((BitVec.allOnes k).setWidth 32 <<< lo)) ||| (v.setWidth 32 <<< lo)

/-- One bit of a word. -/
def getFlag (w : Word) (i : Nat) : Bool := w.getLsbD i

/-- The word with one bit placed. -/
def putFlag (w : Word) (i : Nat) (b : Bool) : Word := putField w i (BitVec.ofBool b)

/-- EntryHi placed into a word by PTE_LAYOUT.Hi (rule R84). -/
def placeHi (l : HiLayout) (e : EntryHi) (w : Word) : Word := putField (putField w l.vpn20 e.vpn20) l.asid e.asid

/-- The fields of an EntryHi word (rule R84). -/
def hiFields (l : HiLayout) (w : Word) : EntryHi := { vpn20 := getField w l.vpn20 20, asid := getField w l.asid 7 }

/-- EntryLo placed into a word by PTE_LAYOUT.Lo (rule R85). -/
def placeLo (l : LoLayout) (e : EntryLo) (w : Word) : Word :=
  putFlag (putFlag (putFlag (putField w l.pfn e.pfn) l.d e.d) l.v e.v) l.g e.g

/-- The fields of an EntryLo word (rule R85). -/
def loFields (l : LoLayout) (w : Word) : EntryLo :=
  { pfn := getField w l.pfn 20, d := getFlag w l.d, v := getFlag w l.v, g := getFlag w l.g }

/-- Index placed into a word by INDEX_LAYOUT (rule R86). -/
def placeIndex (l : IndexLayout) (x : Index) (w : Word) : Word := putFlag (putField w l.tlbIndex x.tlbIndex) l.p x.p

/-- The fields of an Index word (rule R86). -/
def indexFields (l : IndexLayout) (w : Word) : Index := { tlbIndex := getField w l.tlbIndex 6, p := getFlag w l.p }

/-- A CP15 register as a word: its fields at their places in the word w, which gives every other bit (rules R90, R106). -/
def readRegister (s : State) (reg : Cp15Reg) (w : Word) : Word :=
  match reg with
  | .r1 => putFlag w s.cfg.m s.m
  | .entryHi => placeHi s.cfg.hi s.r2.hi w
  | .entryLo => placeLo s.cfg.lo s.r2.lo w
  | .r8 => putField w s.cfg.random s.random
  | .r10 => placeIndex s.cfg.index s.index w

end Sys2Proof.Machine
end

