-- ==== Sys2Proof/Machine/Cp15Access.lean ====
section
/-! DEFINITION. CP15 register access: CP15READ and CP15WRITE (40_tlb_instructions.md rules R106, R107). -/

namespace Sys2Proof.Machine

/-- The state a read of a CP15 register is made in: a read of R8 observes Random (rule R106). -/
def State.observedFor (s : State) : Cp15Reg → State
  | .r8 => s.observeRandom
  | _ => s

/-- CP15READ reg, rule R106: the register's fields in a word whose other bits are a draw, handed to CORE. -/
def execCp15read (reg : Cp15Reg) (s : State) : Host.Outcome State Fault Refusal :=
  privileged s <|
    .next (({ s.observedFor reg with draws := (s.observedFor reg).draws + 1 }).give
      (readRegister (s.observedFor reg) reg (BitVec.ofNat 32 (Config.free (s.observedFor reg).draws))))

/-- The effect of a write of a CP15 register word, on the fields alone (rule R107). -/
def writeRegister (s : State) (reg : Cp15Reg) (w : Word) : Host.Outcome State Fault Refusal :=
  match reg with
  | .r1 => .next { s with m := getFlag w s.cfg.m }
  | .entryHi => .next ({ s with r2 := { s.r2 with hi := hiFields s.cfg.hi w } }).afterEntryHiWrite
  | .entryLo => .next { s with r2 := { s.r2 with lo := loFields s.cfg.lo w } }
  | .r10 => .next { s with index := indexFields s.cfg.index w }
  | .r8 => .refused .writeToReadOnlyRandom

/-- CP15WRITE reg, w, rule R107. -/
def execCp15write (reg : Cp15Reg) (w : Word) (s : State) : Host.Outcome State Fault Refusal :=
  privileged s <| writeRegister s reg w

end Sys2Proof.Machine
end

