-- ==== Sys2Proof/Machine/Flags.lean ====
section
/-! DEFINITION. What the flags of the spec do: G in the match of a Page Table Entry, V and D in the checks of a matching entry, P in
the result of a probe. No instruction writes a condition flag (rule R100 d). -/

namespace Sys2Proof.Machine

/-- `TLBMatch(e, vpn20, asid)`, rule R55: the page is the same and the entry is global or owned by the ASID. V plays no part. -/
def tlbMatch (e : Pte) (vpn20 : BitVec 20) (asid : BitVec 7) : Bool :=
  decide (e.hi.vpn20 = vpn20) && (e.lo.g || decide (e.hi.asid = asid))

/-- The set S of rules R56 and R104: the slots that match, each with its number, in rising order. -/
def State.matching (s : State) (vpn20 : BitVec 20) (asid : BitVec 7) : List (Pte × Nat) :=
  s.tlb.zipIdx.filter (fun x => tlbMatch x.1 vpn20 asid)

/-- The checks of a matching entry, V and then D (rules R57, R58): the exception they raise, if any. -/
def flagCheck (lo : EntryLo) (kind : Kind) : Option Exc :=
  if lo.v = false then some .tlbInvalid
  else if kind = .write ∧ lo.d = false then some .tlbModification
  else none

/-- Index after a probe (rule R104): a slot that matched, with P clear, or any number with P set. -/
def State.probed (s : State) : List (Pte × Nat) → State
  | x :: xs => { s with index := { tlbIndex := BitVec.ofNat 6 (pick s.draws x xs).2, p := false }, draws := s.draws + 1 }
  | [] => { s with index := { tlbIndex := BitVec.ofNat 6 (Config.free s.draws), p := true }, draws := s.draws + 1 }

end Sys2Proof.Machine
end

