-- ==== Sys2Proof/Machine/TlbRead.lean ====
section
/-! DEFINITION. The instructions that inspect the TLB: TLBR and TLBP (40_tlb_instructions.md rules R103, R104). -/

namespace Sys2Proof.Machine

/-- TLBR, rule R103: the slot that Index.TLBIndex names into CP15.R2, the current ASID with it. -/
def execTlbr (s : State) : Host.Outcome State Fault Refusal :=
  privileged s <|
    match s.tlb[s.index.tlbIndex.toNat]? with
    | some e => .next { s with r2 := e }
    | none => .refused .tlbIndexOutOfRange

/-- TLBP, rule R104: the search for EntryHi, G included (decision D34), and its result in Index. -/
def execTlbp (s : State) : Host.Outcome State Fault Refusal :=
  privileged s <| .next (s.probed (s.matching s.r2.hi.vpn20 s.r2.hi.asid))

end Sys2Proof.Machine
end

