-- ==== Sys2Proof/Machine/TlbWrite.lean ====
section
/-! DEFINITION. The instructions that write TLB slots: TLBWI, TLBWR, TLBCLR (40_tlb_instructions.md rules R101, R102, R105). -/

namespace Sys2Proof.Machine

/-- TLBWI, rule R101: CP15.R2 into the slot that Index.TLBIndex names. P is not consulted. -/
def execTlbwi (s : State) : Host.Outcome State Fault Refusal :=
  privileged s <|
    if s.index.tlbIndex.toNat < s.tlbSize then .next (s.setSlot s.index.tlbIndex.toNat s.r2)
    else .refused .tlbIndexOutOfRange

/-- TLBWR, rule R102: CP15.R2 into the slot that Random.TLBIndex names when it is observed. -/
def execTlbwr (s : State) : Host.Outcome State Fault Refusal :=
  privileged s <| .next (s.observeRandom.setSlot s.observeRandom.random.toNat s.r2)

/-- An entry whose every field is zero (rule R105, decision D38). -/
def zeroPte : Pte := { hi := { vpn20 := 0, asid := 0 }, lo := { pfn := 0, d := false, v := false, g := false } }

/-- The TLB with slots 1 and up zeroed and slot 0 kept (rule R105). -/
def clearUnsafe : List Pte → List Pte
  | [] => []
  | e :: rest => e :: rest.map (fun _ => zeroPte)

/-- TLBCLR, rule R105. -/
def execTlbclr (s : State) : Host.Outcome State Fault Refusal :=
  privileged s <| .next { s with tlb := clearUnsafe s.tlb }

end Sys2Proof.Machine
end

