-- ==== Sys2Proof/Machine/Dispatch.lean ====
section
/-! DEFINITION. The meaning of an instruction, one arm per constructor of Instr. -/

namespace Sys2Proof.Machine

def exec (i : Instr) (s : State) : Host.Outcome State Fault Refusal :=
  match i with
  | .tlbwi => Sys2Proof.Machine.execTlbwi s
  | .tlbwr => Sys2Proof.Machine.execTlbwr s
  | .tlbr => Sys2Proof.Machine.execTlbr s
  | .tlbp => Sys2Proof.Machine.execTlbp s
  | .tlbclr => Sys2Proof.Machine.execTlbclr s
  | .cp15read reg => Sys2Proof.Machine.execCp15read reg s
  | .cp15write reg w => Sys2Proof.Machine.execCp15write reg w s

end Sys2Proof.Machine
end

