-- ==== Sys2Proof/Machine/Refill.lean ====
section
/-! DEFINITION. Page Tables, the Segment Table and the TLB-Refill event of the BIOS (41_tlb_refill.md rules R120 to R131), as one
atomic transition (rule R130), and the delivery of an exception: a TLB-Miss to the refill, every other to TRAP (rules R145,
R146). -/

namespace Sys2Proof.Machine

/-- The place of a segment in a row of the Segment Table (rule R123). -/
def segmentNumber : Segment → Nat
  | .kseg0 => 0
  | .useg2 => 1
  | .useg3 => 2

/-- `SEGTBL(asid, seg)`, rule R123. -/
def segTableAddress (t : SegTable) (asid : BitVec 7) (g : Segment) : Nat :=
  match t with
  | .rows base => base + 12 * asid.toNat + 4 * segmentNumber g
  | .listed as => as.getD (3 * asid.toNat + segmentNumber g) 0

/-- The magic number of a PgTbl-Header, `h[31:24]` (rule R122). -/
def headerMagic (h : Word) : Nat := (h.extractLsb' 24 8).toNat

/-- The entry count of a PgTbl-Header, `h[19:0]` (rule R122). -/
def headerCount (h : Word) : Nat := (h.extractLsb' 0 20).toNat

/-- `PgTblSize(N)`, rule R121. -/
def pgTblSize (n : Nat) : Nat := 4 + 8 * n

/-- Row k of the Page Table at t (rules R120, R121, R127). -/
def readRow (s : State) (t k : Nat) : BusResult Pte :=
  match physRead s (t + 4 + 8 * k) .word with
  | .busError => .busError
  | .refused r => .refused r
  | .ok hi =>
    match physRead s (t + 8 + 8 * k) .word with
    | .busError => .busError
    | .refused r => .refused r
    | .ok lo => .ok { hi := hiFields s.cfg.hi hi, lo := loFields s.cfg.lo lo }

/-- The linear search of rule R127: `left` rows from row k on, the first that matches is taken. -/
def searchRows (s : State) (t : Nat) (vpn20 : BitVec 20) : Nat → Nat → BusResult (Option Pte)
  | 0, _ => .ok none
  | left + 1, k =>
    match readRow s t k with
    | .busError => .busError
    | .refused r => .refused r
    | .ok e => if tlbMatch e vpn20 s.r2.hi.asid then .ok (some e) else searchRows s t vpn20 left (k + 1)

/-- What the refill finds: the entry to load, no entry, or a Page Table that fails a check. -/
inductive Found where
  | entry (e : Pte)
  | noEntry
  | badTable
deriving DecidableEq, Repr, Inhabited

/-- Steps 2 and 3 (rules R126, R127) on the Page Table at t: the checks c1, c2, c2a, c3, c4 in that order, then the search. -/
def searchTable (s : State) (t : Nat) (vpn20 : BitVec 20) : BusResult Found :=
  if ¬ (reservedTop < t ∧ t % 4 = 0 ∧ t + 4 ≤ s.cfg.ramTop) then .ok .badTable
  else
    match physRead s t .word with
    | .busError => .busError
    | .refused r => .refused r
    | .ok h =>
      if ¬ (headerMagic h = pgTblMagic ∧ t + pgTblSize (headerCount h) < s.cfg.ramTop) then .ok .badTable
      else
        match searchRows s t vpn20 (headerCount h) 0 with
        | .busError => .busError
        | .refused r => .refused r
        | .ok (some e) => .ok (.entry e)
        | .ok none => .ok .noEntry

/-- Steps 1 to 3 (rules R125 to R127) for the address that missed: only reads of physical memory. -/
def refillSearch (s : State) (va : Word) : BusResult Found :=
  match physRead s (segTableAddress s.cfg.segTable s.r2.hi.asid (segmentOf va)) .word with
  | .busError => .busError
  | .refused r => .refused r
  | .ok t => searchTable s t.toNat (vpn20Of va)

/-- Step 4 (rules R128, R130): the entry into a random slot, as TLBWR writes it, and CP15.R2 left as a draw but for the ASID. -/
def State.loadEntry (s : State) (e : Pte) : State :=
  (s.observeRandom.setSlot s.observeRandom.random.toNat e).havocR2

/-- `Refill(va)`, rule R131. -/
def refill (s : State) (va : Word) (kind : Kind) : Res Unit :=
  match refillSearch s va with
  | .busError => .refused .refillReadOutsideMemory
  | .refused r => .refused r
  | .ok .badTable => .raised ⟨.badPgTbl, va, kind, none⟩ s
  | .ok .noEntry => .raised ⟨.pteMiss, va, kind, none⟩ s
  | .ok (.entry e) => .ok () (s.loadEntry e)

/-- The delivery of an exception of the instruction at `insn` (rules R145, R146, R148): a TLB-Miss is served by the refill and the
instruction is resumed from its start; every other exception, those of the refill among them, is taken. -/
def deliver (insn : Word) (t : Trap) (s : State) : Host.Outcome State Fault Refusal :=
  if t.exc = .tlbMiss then
    match refill s t.va t.kind with
    | .ok () s1 => .next (s1.resume insn)
    | .raised t1 s1 => .next (s1.takeException t1)
    | .refused r => .refused r
  else .next (s.takeException t)

end Sys2Proof.Machine
end

