-- ==== Sys2Proof/Machine/Translate.lean ====
section
/-! DEFINITION. Translate (20_memory.md rule R62), and the accesses of CORE that go through it: MemRead, MemWrite and the fetch
(rules R9, R63, R65). -/

namespace Sys2Proof.Machine

/-- An exception of an access, before the physical access is made. -/
def raise (e : Exc) (va : Word) (kind : Kind) (s : State) : Res Word := .raised ⟨e, va, kind, none⟩ s

/-- Steps 6 to 10 of Translate on the matching entry that was drawn (rules R57 to R61). -/
def translateBy (s : State) (va : Word) (kind : Kind) (e : Pte) : Res Word :=
  match flagCheck e.lo kind with
  | some x => raise x va kind s
  | none =>
    if s.mode = .user ∧ reserved (physicalOf e.lo.pfn (offsetOf va)) = true then .refused .userTranslationIntoReserved
    else .ok (physicalOf e.lo.pfn (offsetOf va)) s

/-- Steps 3 to 10 of Translate: the mode check, the lookup and what follows (rules R54, R56, R60). -/
def translateVirtual (s : State) (va : Word) (kind : Kind) : Res Word :=
  if s.mode = .user ∧ kernelSegment va = true then raise .addressError va kind s
  else
    match s.matching (vpn20Of va) s.r2.hi.asid with
    | [] => raise .tlbMiss va kind s
    | x :: xs => translateBy { s with draws := s.draws + 1 } va kind (pick s.draws x xs).1

/-- `Translate(va, kind, mode)`, rule R62, in the mode in force. -/
def translateVa (s : State) (va : Word) (kind : Kind) : Res Word :=
  if s.mode = .user ∧ reserved va = true then raise .addressError va kind s
  else if s.m = false ∨ reserved va = true then .ok va s
  else (translateVirtual s va kind).mapState State.afterTranslate

/-- An address is a multiple of an access width (rule R65). -/
def aligned (va : Word) (n : Width) : Bool := decide (va.toNat % n.bytes = 0)

/-- `MemRead(va, n)` for a read or a fetch: PhysRead of Translate (rules R9, R47, R65). -/
def memRead (s : State) (va : Word) (n : Width) (kind : Kind) : Res Word :=
  if aligned va n = false then .refused .misaligned
  else
    match translateVa s va kind with
    | .raised t s1 => .raised t s1
    | .refused r => .refused r
    | .ok pa s1 =>
      match physRead s1 pa.toNat n with
      | .ok w => .ok w s1
      | .busError => .raised ⟨.busError, va, kind, some pa⟩ s1
      | .refused r => .refused r

/-- `MemWrite(va, n, v)`: PhysWrite of Translate (rules R9, R47, R65). -/
def memWrite (s : State) (va : Word) (n : Width) (v : Word) : Res Unit :=
  if aligned va n = false then .refused .misaligned
  else
    match translateVa s va .write with
    | .raised t s1 => .raised t s1
    | .refused r => .refused r
    | .ok pa s1 =>
      match physWrite s1 pa.toNat n v with
      | .ok s2 => .ok () s2
      | .busError => .raised ⟨.busError, va, .write, some pa⟩ s1
      | .refused r => .refused r

/-- The fetch of the instruction word at the pc (rules R63, R72). -/
def fetch (s : State) : Res Word := memRead s s.pc s.cfg.insnWidth .fetch

end Sys2Proof.Machine
end

