-- ==== Sys2Proof/Machine/CoreAccess.lean ====
section
/-! DEFINITION. What CORE does: its memory requests, the abstract LOAD and STORE of rule R83 among them, the fetch and execution of one
instruction, and CORE's own moves (rule R24). -/

namespace Sys2Proof.Machine

/-! ## Memory requests (rule R24, decision D6) -/

/-- The word of a read is handed to CORE, zero extended (rule R8). -/
def handed : Res Word → Res Unit
  | .ok w s => .ok () (s.give w)
  | .raised t s => .raised t s
  | .refused r => .refused r

/-- One request: MemRead or MemWrite (rules R9, R24). -/
def makeRequest (r : Request) (s : State) : Res Unit :=
  match r with
  | .load n va => handed (memRead s va n .read)
  | .fetch n va => handed (memRead s va n .fetch)
  | .store n va v => memWrite s va n v

/-- The requests of one instruction, in order. Where one raises, what the first `stands` of those before it wrote and read stands and the
rest is as if they had not been made (91_not_in_source.md N22; notes/assumptions/32.md): `mem` and `results` are memory and the words
handed to CORE as they then are. -/
def makeRequests : List Request → Nat → Memory → List Word → State → Res Unit
  | [], _, _, _, s => .ok () s
  | r :: rs, stands, mem, results, s =>
    match makeRequest r s with
    | .raised t s1 => .raised t { s1 with mem := mem, results := results }
    | .refused e => .refused e
    | .ok () s1 =>
      match stands with
      | 0 => makeRequests rs 0 mem results s1
      | k + 1 => makeRequests rs k s1.mem s1.results s1

/-! ## Instructions -/

/-- What CORE supplies to the instruction it is executing. -/
def instrRun : List CoreInput → InstrRun
  | .proceed r :: _ => r
  | .move _ :: _ => {}
  | [] => {}

/-- The requests of a term: none of the seven instructions makes one (rule R100 c). -/
def termRequests (run : InstrRun) : Term → List Request
  | .instr _ => []
  | .load n va => [.load n va]
  | .store n va v => [.store n va v]
  | .core => run.requests

/-- The requests of a term, made. -/
def requestsOf (t : Term) (s : State) : Res Unit :=
  makeRequests (termRequests (instrRun s.inputs) t) (instrRun s.inputs).stands s.mem s.results s

/-- The requests of the instruction at `insn` were made: it completes and the pc moves past it, or the exception is delivered. -/
def finish (insn : Word) : Res Unit → Host.Outcome State Fault Refusal
  | .ok () s => .next s.advance
  | .raised t s => deliver insn t s
  | .refused r => .refused r

/-- LOAD n, va (rules R9, R83): MemRead, the word read handed to CORE. -/
def execLoad (n : Width) (va : Word) (s : State) : Host.Outcome State Fault Refusal :=
  finish s.pc (requestsOf (.load n va) s)

/-- STORE n, va, v (rules R9, R83): MemWrite of the n low bytes of v. -/
def execStore (n : Width) (va v : Word) (s : State) : Host.Outcome State Fault Refusal :=
  finish s.pc (requestsOf (.store n va v) s)

/-- An instruction of CORE: the requests CORE makes (decisions D6 and D32). What it does to CORE is the moves CORE makes after it. -/
def execCore (s : State) : Host.Outcome State Fault Refusal :=
  finish s.pc (requestsOf .core s)

/-- The pc moves past an instruction that completed; a stop stays a stop. -/
def advanced : Host.Outcome State Fault Refusal → Host.Outcome State Fault Refusal
  | .next s => .next s.advance
  | .fault r => .fault r
  | .refused r => .refused r

/-- The execution of a decoded term, after its fetch. -/
def execTerm (t : Term) (s : State) : Host.Outcome State Fault Refusal :=
  match t with
  | .instr i => advanced (exec i s)
  | .load n va => execLoad n va s
  | .store n va v => execStore n va v s
  | .core => execCore s

/-- One instruction: the fetch at the pc (an exception of it is delivered, rule R144), the decoding by DECODE, and the execution,
each write of the last instruction seen by all of them (rule R71). A conditional instruction whose condition fails completes without
effect. -/
def runInstruction (s : State) : Host.Outcome State Fault Refusal :=
  match fetch s with
  | .raised t s1 => deliver s.pc t s1
  | .refused r => .refused r
  | .ok w s1 =>
    match decode s.cfg.decode w s.source s.address with
    | .undecodable => .refused .undecodable
    | .term t => if (instrRun s.inputs).holds then execTerm t s1 else .next s1.advance

/-- A move of CORE by itself. -/
def CoreMove.apply (s : State) : CoreMove → State
  | .cpsr w => { s with cpsr := w }
  | .pc w => { s with pc := w }
  | .source w => { s with source := w }
  | .address w => { s with address := w }

/-- CORE is executing the instruction at the pc: it is not about to make a move of its own. -/
def atInstruction : List CoreInput → Bool
  | .move _ :: _ => false
  | .proceed _ :: _ => true
  | [] => true

/-- Where the next fetch reads: the physical address of the pc, if the pc can be fetched from. -/
def fetchAddress (s : State) : Word :=
  match translateVa s s.pc .fetch with
  | .ok pa _ => pa
  | _ => s.pc

/-- The state with an instruction word stored where the next step fetches, as the hardware stores it, and with the source word
CORE supplies to it (notes/assumptions/12.md). -/
def placeInstruction (s : State) (insn src : Word) : State :=
  { s with
    mem := s.mem.writeBytes (fetchAddress s).toNat (s.cfg.byteOrder.split s.cfg.insnWidth.bytes insn)
    source := src
    trap := none
    inputs := [] }

end Sys2Proof.Machine
end

