-- ==== Sys2Proof/Machine/Step.lean ====
section
/-! DEFINITION. One step of the machine. -/

namespace Sys2Proof.Machine

/-- One step: a machine that an exception has ended stays ended (rule R145); a move CORE is about to make is made, between two
instructions; else one instruction is fetched and executed. An instruction that a served TLB-Miss sends back to its start has not
completed, so CORE is still executing it (rule R148). -/
def step (s : State) : Host.Outcome State Fault Refusal :=
  match s.trap with
  | some t => .fault (.trapped t)
  | none =>
    match s.inputs with
    | .move x :: xs => .next (x.apply { s with inputs := xs })
    | .proceed _ :: _ => runInstruction s
    | [] => runInstruction s

/-- The state with a table word's instruction where step fetches its next one: bits 31 to 0 are the instruction word, bits 63 to
32 the source word CORE supplies with it. -/
def State.withFetchWord (s : State) (nbits w : Nat) : State :=
  placeInstruction s (BitVec.ofNat 32 (w % 2 ^ nbits)) (BitVec.ofNat 32 (w % 2 ^ nbits / 2 ^ 32))

end Sys2Proof.Machine
end

