-- ==== Sys2Proof/Safety.lean ====
section
/-! DEFINITION. What counts as a good state and a good step, and the invariant of the machine. -/

namespace Sys2Proof.Machine

/-- TLBSIZE is in 4 to 64 (rule R4). -/
abbrev State.TlbSizeOk (s : State) : Prop := 4 ≤ s.tlbSize ∧ s.tlbSize ≤ 64

/-- The invariant of rule R19: 1 <= Random.TLBIndex <= TLBSIZE - 1. -/
abbrev State.RandomOk (s : State) : Prop := 1 ≤ s.random.toNat ∧ s.random.toNat + 1 ≤ s.tlbSize

/-- Memory is in its canonical form and lists only addresses of RAM or below (rules R43, R46). -/
abbrev State.MemOk (s : State) : Prop := s.mem.wf = true ∧ s.mem.all (fun c => decide (c.1 < s.cfg.ramTop)) = true

/-- The invariant of the machine. -/
abbrev State.Inv (s : State) : Prop := s.cfg.wf = true ∧ s.TlbSizeOk ∧ s.RandomOk ∧ s.MemOk

/-- A state that no exception has ended: an ended one is never a good end (rule R145). -/
abbrev State.Running (s : State) : Prop := s.trap = none

/-! ## The terms of the claims -/

/-- The match of rule R55, as the rule states it. -/
abbrev Matches (e : Pte) (vpn20 : BitVec 20) (asid : BitVec 7) : Prop :=
  e.hi.vpn20 = vpn20 ∧ (e.lo.g = true ∨ e.hi.asid = asid)

/-- The state changes in CP15.R2 and in the draws alone, and the current ASID stays: what rule R16 lets a translated access do. -/
def OnlyR2 (s t : State) : Prop := t = { s with r2 := t.r2, draws := t.draws } ∧ t.r2.hi.asid = s.r2.hi.asid

/-- The state Translate, or an access, answers with, whether it completes or raises. -/
def Res.state? {α : Type} : Res α → Option State
  | .ok _ s => some s
  | .raised _ s => some s
  | .refused _ => none

/-- The word t that SEGTBL gives for the current ASID and the segment of va (rules R123, R125). -/
abbrev TableOf (s : State) (va t : Word) : Prop :=
  physRead s (segTableAddress s.cfg.segTable s.r2.hi.asid (segmentOf va)) .word = .ok t

/-- The Page Table at t passes the checks c1, c2, c2a, c3 and c4 of rule R126, with the header h. -/
abbrev GoodTable (s : State) (t h : Word) : Prop :=
  0x8000 < t.toNat ∧ t.toNat % 4 = 0 ∧ t.toNat + 4 ≤ s.cfg.ramTop ∧ physRead s t.toNat .word = .ok h ∧
    (h.extractLsb' 24 8).toNat = 0x2A ∧ t.toNat + (4 + 8 * (h.extractLsb' 0 20).toNat) < s.cfg.ramTop

/-- Row k of the Page Table at t holds the entry e (rules R120, R121). -/
abbrev RowIs (s : State) (t : Word) (k : Nat) (e : Pte) : Prop :=
  ∃ hi lo, physRead s (t.toNat + 4 + 8 * k) .word = .ok hi ∧ physRead s (t.toNat + 8 + 8 * k) .word = .ok lo ∧
    e = { hi := hiFields s.cfg.hi hi, lo := loFields s.cfg.lo lo }

/-- The next step of the state executes the instruction at the pc: no exception has ended the run, and CORE makes no move of its own. -/
abbrev State.Executes (s : State) : Prop := s.trap = none ∧ atInstruction s.inputs = true

/-- The state changes in CP15.R2, memory, the words handed to CORE and the draws alone, and the current ASID stays: what memory requests
can do. -/
def OnlyRequests (s t : State) : Prop :=
  t = { s with r2 := t.r2, mem := t.mem, results := t.results, draws := t.draws } ∧ t.r2.hi.asid = s.r2.hi.asid

/-- The requests are made in order, each from the state the one before it leaves, and each completes. -/
def Makes (s : State) : List Request → State → Prop
  | [], t => t = s
  | r :: rs, t => ∃ u, makeRequest r s = .ok () u ∧ Makes u rs t

/-- The next step of the state raises x, in the state s1, at its fetch or at a memory request. -/
def StepRaises (s : State) (x : Trap) (s1 : State) : Prop :=
  s.Executes ∧
    (fetch s = .raised x s1 ∨
     ∃ w s0 tm, fetch s = .ok w s0 ∧ (instrRun s.inputs).holds = true ∧
       decode s.cfg.decode w s.source s.address = .term tm ∧ requestsOf tm s0 = .raised x s1)

/-- Where the next step raises, no request of the instruction stands: none is to stand, CORE makes at most one, or the instruction is not
one of CORE's with requests of its own. -/
abbrev State.NothingStands (s : State) : Prop :=
  (instrRun s.inputs).stands = 0 ∨ (instrRun s.inputs).requests.length ≤ 1 ∨
    ∀ w s0, fetch s = .ok w s0 → decode s.cfg.decode w s.source s.address ≠ .term .core

/-- A step is safe when it answers a next state that no exception has ended. -/
def SafeStep (s : State) : Prop := ∃ t, step s = .next t ∧ t.Running

end Sys2Proof.Machine
end

