-- ==== Sys2Proof/Certificates/Slice0/Obligations.lean ====
section
/-! DEFINITION. The statements about the machine, one for each rule or group of rules of the spec they formalise. -/

open Sys2Proof Sys2Proof.Machine

/-! ## Reset and the parameters -/

/-- Rules R30, R31: a reset, from any former state, leaves M = 0 and Random.TLBIndex = TLBSIZE - 1 for the TLBSIZE it latches, and an
observation of Random after it gives a value in 1 to TLBSIZE - 1. -/
def Obligations.ResetEntersPhysicalModeWithRandomAtTop : Prop :=
  ∀ (c : Config) (s : State), c.wf = true →
    (State.resetEvent c s).m = false ∧
    (State.resetEvent c s).tlbSize = c.tlbSize ∧
    (State.resetEvent c s).random.toNat = c.tlbSize - 1 ∧
    (1 ≤ (State.resetEvent c s).observeRandom.random.toNat ∧
      (State.resetEvent c s).observeRandom.random.toNat ≤ c.tlbSize - 1)

/-- Rules R170, R171: nothing of the former state survives a reset, whatever its TLBSIZE was; no byte of memory holds a value
(notes/assumptions/6.md) and no exception is pending. The two machines share the count of draws (notes/assumptions/3.md), from which the
registers without a reset value are drawn (notes/assumptions/5.md). -/
def Obligations.ResetLosesTheFormerState : Prop :=
  ∀ (c : Config) (s s' : State), s.draws = s'.draws →
    State.resetEvent c s = State.resetEvent c s' ∧ (State.resetEvent c s).trap = none ∧
    ∀ a, (State.resetEvent c s).mem.read a = none

/-- The invariant holds after every reset that latches well-formed parameters. -/
def Obligations.ResetMeetsTheInvariant : Prop :=
  ∀ (c : Config) (seed : Nat), c.wf = true → (State.resetWith c seed).Inv

/-- Rule R4: TLBSIZE is constant between two resets and stays in 4 to 64; so are the other parameters (rule R25). -/
def Obligations.StepKeepsTheParameters : Prop :=
  ∀ s t : State, step s = .next t → t.tlbSize = s.tlbSize ∧ (s.TlbSizeOk → t.TlbSizeOk) ∧ t.cfg = s.cfg

/-- Every step keeps the invariant: the parameters are as the spec restricts them, TLBSIZE is in 4 to 64 (rule R4), Random is in 1
to TLBSIZE - 1 (rule R19), memory is in its canonical form and lists nothing at or above RAMTOP (rule R43). -/
def Obligations.StepKeepsTheInvariant : Prop :=
  ∀ s t : State, s.Inv → step s = .next t → t.Inv

/-! ## The instructions -/

/-- Rule R101: TLBWI writes CP15.R2 into the slot that Index.TLBIndex names, whatever Index.P is, and changes nothing else. (An index
that is no slot: AnIndexThatIsNoSlotIsRefused.) -/
def Obligations.TlbwiWritesTheIndexedSlot : Prop :=
  ∀ s : State, s.mode = .privileged → s.index.tlbIndex.toNat < s.tlbSize →
    ∃ t, exec .tlbwi s = .next t ∧ t.tlb[s.index.tlbIndex.toNat]? = some s.r2 ∧
      (∀ j : Nat, j ≠ s.index.tlbIndex.toNat → t.tlb[j]? = s.tlb[j]?) ∧ t = { s with tlb := t.tlb }

/-- Rule R102: TLBWR writes CP15.R2 into one slot among 1 to TLBSIZE - 1, the one Random names when it is observed, and changes
nothing else but Random itself (and the model's count of draws). -/
def Obligations.TlbwrWritesOneUnsafeSlot : Prop :=
  ∀ s : State, s.mode = .privileged → s.TlbSizeOk → s.RandomOk →
    ∃ t, exec .tlbwr s = .next t ∧ 1 ≤ t.random.toNat ∧ t.random.toNat ≤ s.tlbSize - 1 ∧
      t.tlb[t.random.toNat]? = some s.r2 ∧ (∀ j : Nat, j ≠ t.random.toNat → t.tlb[j]? = s.tlb[j]?) ∧
      t = { s with tlb := t.tlb, random := t.random, draws := t.draws }

/-- Rule R103: TLBR puts the slot that Index.TLBIndex names into CP15.R2, all six fields, so that the current ASID becomes the slot's,
and changes nothing else. -/
def Obligations.TlbrLoadsTheIndexedSlot : Prop :=
  ∀ s : State, s.mode = .privileged → s.index.tlbIndex.toNat < s.tlbSize →
    ∃ e, s.tlb[s.index.tlbIndex.toNat]? = some e ∧ exec .tlbr s = .next { s with r2 := e }

/-- Rules R101, R103, the spec's decision D17: TLBWI and TLBR with an index that is no slot have no meaning. -/
def Obligations.AnIndexThatIsNoSlotIsRefused : Prop :=
  ∀ s : State, s.mode = .privileged → s.tlbSize ≤ s.index.tlbIndex.toNat →
    exec .tlbwi s = .refused .tlbIndexOutOfRange ∧ exec .tlbr s = .refused .tlbIndexOutOfRange

/-- Rule R104: TLBP clears P and puts the number of a slot that matches EntryHi into Index.TLBIndex when there is one, whatever its
V flag is, and sets P when there is none (the index is then any number); it changes nothing else (but the model's count of draws). That
a global slot is found for another ASID, and that any one of several is reported, are the spec's decisions D34 and D16. -/
def Obligations.TlbpReportsAMatchingSlot : Prop :=
  ∀ s : State, s.mode = .privileged → s.TlbSizeOk →
    ∃ t, exec .tlbp s = .next t ∧ t = { s with index := t.index, draws := t.draws } ∧
      ((∃ (i : Nat) (e : Pte), s.tlb[i]? = some e ∧ Matches e s.r2.hi.vpn20 s.r2.hi.asid) →
        t.index.p = false ∧
          ∃ e, s.tlb[t.index.tlbIndex.toNat]? = some e ∧ Matches e s.r2.hi.vpn20 s.r2.hi.asid) ∧
      ((∀ (i : Nat) (e : Pte), s.tlb[i]? = some e → ¬ Matches e s.r2.hi.vpn20 s.r2.hi.asid) → t.index.p = true)

/-- Rule R105: TLBCLR makes every field of slots 1 to TLBSIZE - 1 zero, keeps slot 0, and changes nothing else (the spec's decision
D38 on what "zero's out" means). -/
def Obligations.TlbclrZeroesTheUnsafeSlots : Prop :=
  ∀ s : State, s.mode = .privileged →
    ∃ t, exec .tlbclr s = .next t ∧ t.tlb[0]? = s.tlb[0]? ∧
      (∀ i : Nat, 1 ≤ i → i < s.tlbSize →
        ∃ e, t.tlb[i]? = some e ∧ e.hi.vpn20 = 0 ∧ e.hi.asid = 0 ∧ e.lo.pfn = 0 ∧ e.lo.d = false ∧ e.lo.v = false ∧
          e.lo.g = false) ∧
      t.tlbSize = s.tlbSize ∧ t = { s with tlb := t.tlb }

/-- Rule R106: CP15READ hands CORE a word in which the fields of the register stand at their places, for every layout that fits; a
read of R8 gives a value in 1 to TLBSIZE - 1. It writes none of the spec's state (but Random, which the hardware counts down, and
the model's count of draws). -/
def Obligations.Cp15ReadGivesTheRegisterFields : Prop :=
  ∀ (s : State) (reg : Cp15Reg), s.mode = .privileged → s.cfg.wf = true → s.TlbSizeOk → s.RandomOk →
    ∃ t w, exec (.cp15read reg) s = .next t ∧
      t = { s with results := w :: s.results, random := t.random, draws := t.draws } ∧
      (match reg with
       | .r1 => getFlag w s.cfg.m = s.m ∧ t.random = s.random
       | .entryHi => hiFields s.cfg.hi w = s.r2.hi ∧ t.random = s.random
       | .entryLo => loFields s.cfg.lo w = s.r2.lo ∧ t.random = s.random
       | .r8 => 1 ≤ (getField w s.cfg.random 6).toNat ∧ (getField w s.cfg.random 6).toNat ≤ s.tlbSize - 1
       | .r10 => indexFields s.cfg.index w = s.index ∧ t.random = s.random)

/-- Rule R107: CP15WRITE takes the fields of the register from their places in the word, ignores every other bit, and changes nothing else
(that a write of R1 changes M alone is the spec's decision D14, notes/assumptions/19.md); after a write of EntryHi, EntryLo is a draw
under R2_VOLATILITY = havoc_on_translate (the spec's decision D11); a write of R8 is refused, and one of R10 takes P too (D30). -/
def Obligations.Cp15WriteSetsTheRegisterFields : Prop :=
  ∀ (s : State) (w : Word), s.mode = .privileged →
    exec (.cp15write .r1 w) s = .next { s with m := w.getLsbD s.cfg.m } ∧
    (∃ t, exec (.cp15write .entryHi w) s = .next t ∧ t = { s with r2 := t.r2, draws := t.draws } ∧
      t.r2.hi = { vpn20 := w.extractLsb' s.cfg.hi.vpn20 20, asid := w.extractLsb' s.cfg.hi.asid 7 } ∧
      (s.cfg.volatility = .stable → t.r2.lo = s.r2.lo)) ∧
    exec (.cp15write .entryLo w) s = .next { s with r2 := { s.r2 with lo :=
      { pfn := w.extractLsb' s.cfg.lo.pfn 20, d := w.getLsbD s.cfg.lo.d, v := w.getLsbD s.cfg.lo.v,
        g := w.getLsbD s.cfg.lo.g } } } ∧
    exec (.cp15write .r10 w) s = .next { s with index :=
      { tlbIndex := w.extractLsb' s.cfg.index.tlbIndex 6, p := w.getLsbD s.cfg.index.p } } ∧
    exec (.cp15write .r8 w) s = .refused .writeToReadOnlyRandom

/-- Rule R100 e, the spec's decision D18: in User mode none of the seven instructions has a meaning. -/
def Obligations.UserModeGivesCp15InstructionsNoMeaning : Prop :=
  ∀ (i : Instr) (s : State), s.mode = .user → exec i s = .refused .cp15InUserMode

/-- The frame of the seven instructions (rules R100 c and d): the pc, CPSR, every byte of memory, the parameters and the number of slots
are as before, and only CP15READ hands CORE a word. That exec leaves the pc, which the step then moves, is the model's choice
(notes/assumptions/9.md). -/
def Obligations.Cp15InstructionsTouchNoMemory : Prop :=
  ∀ (i : Instr) (s t : State), exec i s = .next t →
    (∀ a, t.mem.read a = s.mem.read a) ∧ t.pc = s.pc ∧ t.cpsr = s.cpsr ∧ t.cfg = s.cfg ∧ t.trap = s.trap ∧
    t.source = s.source ∧ t.address = s.address ∧ t.inputs = s.inputs ∧ t.tlbSize = s.tlbSize ∧
    ((∀ reg, i ≠ .cp15read reg) → t.results = s.results)

/-- The state table of 10_state.md: M is written by CP15WRITE R1 alone; Index by TLBP and CP15WRITE R10; the ASID by TLBR and
CP15WRITE EntryHi; a TLB slot by TLBWI, TLBWR and TLBCLR (rule R21); the hardware changes no ASID by itself (the spec's decision D33,
notes/assumptions/22.md). Random, which the table gives to the hardware in every cycle, is moved in the model only where it is observed
(the model's choice, notes/assumptions/8.md). -/
def Obligations.RegistersHaveNoOtherWriters : Prop :=
  ∀ (i : Instr) (s t : State), exec i s = .next t →
    ((∀ w, i ≠ .cp15write .r1 w) → t.m = s.m) ∧
    (i ≠ .tlbp → (∀ w, i ≠ .cp15write .r10 w) → t.index = s.index) ∧
    (i ≠ .tlbr → (∀ w, i ≠ .cp15write .entryHi w) → t.r2.hi = s.r2.hi) ∧
    (i ≠ .tlbr → (∀ w, i ≠ .cp15write .entryHi w) → (∀ w, i ≠ .cp15write .entryLo w) → t.r2 = s.r2) ∧
    (i ≠ .tlbwi → i ≠ .tlbwr → i ≠ .tlbclr → t.tlb = s.tlb) ∧
    (i ≠ .tlbwr → i ≠ .cp15read .r8 → t.random = s.random)

/-- Rule R178: slot 0 is safe. A step that changes it, the refill included, has executed TLBWI with Index.TLBIndex = 0. That it did so in
Privileged mode is the spec's decision D18, that TLBWI has no meaning in User mode (notes/assumptions/16.md). -/
def Obligations.OnlyTlbwiWritesTheSafeSlot : Prop :=
  ∀ s t : State, s.TlbSizeOk → s.RandomOk → step s = .next t → t.tlb[0]? ≠ s.tlb[0]? →
    s.index.tlbIndex = 0 ∧ s.mode = .privileged ∧
      ∃ w s1, fetch s = .ok w s1 ∧ decode s.cfg.decode w s.source s.address = .term (.instr .tlbwi) ∧ (instrRun s.inputs).holds = true

/-! ## Random -/

/-- Rule R19: in each cycle Random.TLBIndex goes down by one, from 1 back to TLBSIZE - 1, so that it stays in 1 to TLBSIZE - 1, and
after TLBSIZE - 1 cycles it is what it was. -/
def Obligations.RandomCountsDownAndWraps : Prop :=
  ∀ (n : Nat) (r : BitVec 6), 4 ≤ n → n ≤ 64 → 1 ≤ r.toNat → r.toNat ≤ n - 1 →
    (randomTick n r).toNat = (if r.toNat = 1 then n - 1 else r.toNat - 1) ∧
    (∀ k, 1 ≤ (randomAfter n k r).toNat ∧ (randomAfter n k r).toNat ≤ n - 1) ∧
    randomAfter n (n - 1) r = r

/-- Rule R19, the spec's decision D15: after some number of cycles Random has any value from 1 to TLBSIZE - 1, and an observation of
Random gives its value after a number of cycles that is a free value (the model's choice, notes/assumptions/8.md). -/
def Obligations.RandomReachesEveryUnsafeSlot : Prop :=
  (∀ (n : Nat) (r v : BitVec 6), 4 ≤ n → n ≤ 64 → 1 ≤ r.toNat → r.toNat ≤ n - 1 → 1 ≤ v.toNat → v.toNat ≤ n - 1 →
    ∃ k, randomAfter n k r = v) ∧
  (∀ s : State, s.observeRandom = { s with random := randomAfter s.tlbSize (Config.free s.draws) s.random, draws := s.draws + 1 })

/-! ## Addresses -/

/-- Rule R41: a physical address is its frame number times 4096 plus its offset, and is made of the two. -/
def Obligations.PhysicalAddressIsFrameAndOffset : Prop :=
  (∀ (pfn : BitVec 20) (o : BitVec 12), (physicalOf pfn o).toNat = pfn.toNat * 4096 + o.toNat) ∧
  (∀ pa : Word, physicalOf (pa.extractLsb' 12 20) (offsetOf pa) = pa)

/-- Rule R50: the three segments are the three ranges of the table. -/
def Obligations.SegmentsAreAddressRanges : Prop :=
  ∀ va : Word,
    (segmentOf va = .kseg0 ↔ va.toNat ≤ 0x7FFFFFFF) ∧
    (segmentOf va = .useg2 ↔ 0x80000000 ≤ va.toNat ∧ va.toNat ≤ 0xBFFFFFFF) ∧
    (segmentOf va = .useg3 ↔ 0xC0000000 ≤ va.toNat)

/-! ## Translate -/

/-- Rule R53: in User mode an access below 0x0000.8000 raises Address Error in both addressing modes, and in physical addressing mode
nothing else is forbidden. -/
def Obligations.UserModeFaultsBelowTheReservedTop : Prop :=
  ∀ (s : State) (va : Word) (k : Kind), s.mode = .user →
    (va.toNat < 0x8000 → translateVa s va k = .raised ⟨.addressError, va, k, none⟩ s) ∧
    (s.m = false → 0x8000 ≤ va.toNat → translateVa s va k = .ok va s)

/-- Rule R54: in virtual addressing mode an access in User mode to any address of Kseg0 raises Address Error, whatever the TLB
holds: that the mode is checked before the lookup is the spec's decision D8 (notes/assumptions/25.md). What else changes is rule R16's,
with the spec's decisions D11 and D33 (notes/assumptions/15.md and 22.md). -/
def Obligations.UserModeFaultsOnKseg0 : Prop :=
  ∀ (s : State) (va : Word) (k : Kind), s.m = true → s.mode = .user → va.toNat < 0x80000000 →
    ∃ t, translateVa s va k = .raised ⟨.addressError, va, k, none⟩ t ∧ OnlyR2 s t

/-- Rule R52: in physical addressing mode, and for a reserved address, the physical address is the requested one and nothing
changes: the TLB, the ASID and the flags play no part. -/
def Obligations.UntranslatedAddressesAreDirect : Prop :=
  ∀ (s : State) (va : Word) (k : Kind), (s.m = false ∨ va.toNat < 0x8000) → (s.mode = .privileged ∨ 0x8000 ≤ va.toNat) →
    translateVa s va k = .ok va s

/-- Rule R56: an access that is translated (M = 1, at or above 0x0000.8000, allowed to the mode) and that no slot matches, of all TLBSIZE,
raises TLB-Miss, in Privileged mode too. That CP15.R2 alone may then change, and never the ASID, is rule R16 with the spec's decisions D11
and D33 (notes/assumptions/15.md and 22.md). -/
def Obligations.NoMatchingSlotRaisesTlbMiss : Prop :=
  ∀ (s : State) (va : Word) (k : Kind), s.m = true → 0x8000 ≤ va.toNat → (s.mode = .privileged ∨ 0x80000000 ≤ va.toNat) →
    (∀ (i : Nat) (e : Pte), s.tlb[i]? = some e → ¬ Matches e (va.extractLsb' 12 20) s.r2.hi.asid) →
    ∃ t, translateVa s va k = .raised ⟨.tlbMiss, va, k, none⟩ t ∧ OnlyR2 s t

/-- Rules R57, R58, R59: a translated access that one entry matches is decided by that entry: V = 0 raises TLB-Invalid, whatever D is and
whatever the access is; then a write with D = 0 raises TLB-Modification and no byte of memory changes; then the physical address is the
entry's frame and the offset, and no slot changes. What else changes is rule R16's, the spec's decision D11 (notes/assumptions/15.md). -/
def Obligations.TheMatchingSlotDecidesTheAccess : Prop :=
  ∀ (s : State) (va : Word) (k : Kind) (i : Nat) (e : Pte), s.m = true → 0x8000 ≤ va.toNat →
    (s.mode = .privileged ∨ 0x80000000 ≤ va.toNat) →
    s.tlb[i]? = some e → Matches e (va.extractLsb' 12 20) s.r2.hi.asid →
    (∀ (j : Nat) (e' : Pte), s.tlb[j]? = some e' → Matches e' (va.extractLsb' 12 20) s.r2.hi.asid → e' = e) →
    ∃ t : State, t = { s with r2 := t.r2, draws := t.draws } ∧
      (e.lo.v = false → translateVa s va k = .raised ⟨.tlbInvalid, va, k, none⟩ t) ∧
      (e.lo.v = true → k = .write → e.lo.d = false → translateVa s va k = .raised ⟨.tlbModification, va, k, none⟩ t) ∧
      (e.lo.v = true → (k = .write → e.lo.d = true) → (s.mode = .privileged ∨ 8 ≤ e.lo.pfn.toNat) →
        translateVa s va k = .ok (physicalOf e.lo.pfn (offsetOf va)) t)

/-- Rules R60, R61, the spec's decisions D9 and D10: when several slots match, one of them decides, as the only one would; a User-mode
access that it sends into the reserved address space has no meaning. What else changes is rule R16's, with the decisions D11 and D33
(notes/assumptions/15.md and 22.md). -/
def Obligations.OneOfSeveralMatchingSlotsDecides : Prop :=
  ∀ (s : State) (va : Word) (k : Kind), s.m = true → 0x8000 ≤ va.toNat → (s.mode = .privileged ∨ 0x80000000 ≤ va.toNat) →
    (∃ (i : Nat) (e : Pte), s.tlb[i]? = some e ∧ Matches e (va.extractLsb' 12 20) s.r2.hi.asid) →
    ∃ (i : Nat) (e : Pte) (t : State), s.tlb[i]? = some e ∧ Matches e (va.extractLsb' 12 20) s.r2.hi.asid ∧ OnlyR2 s t ∧
      (e.lo.v = false → translateVa s va k = .raised ⟨.tlbInvalid, va, k, none⟩ t) ∧
      (e.lo.v = true → k = .write → e.lo.d = false → translateVa s va k = .raised ⟨.tlbModification, va, k, none⟩ t) ∧
      (e.lo.v = true → (k = .write → e.lo.d = true) →
        (s.mode = .privileged ∨ 0x8000 ≤ (physicalOf e.lo.pfn (offsetOf va)).toNat) →
        translateVa s va k = .ok (physicalOf e.lo.pfn (offsetOf va)) t) ∧
      (e.lo.v = true → (k = .write → e.lo.d = true) →
        s.mode = .user → (physicalOf e.lo.pfn (offsetOf va)).toNat < 0x8000 →
        translateVa s va k = .refused .userTranslationIntoReserved)

/-- Rule R16, the spec's decisions D11 and D33 (notes/assumptions/15.md and 22.md): a Translate, whether it returns or raises, changes
nothing but EntryHi.VPN20 and EntryLo (and the model's count of draws), never the ASID; under
R2_VOLATILITY = stable it changes no field of CP15.R2, and an access that is not translated changes nothing at all. -/
def Obligations.TranslateChangesOnlyR2 : Prop :=
  ∀ (s t : State) (va : Word) (k : Kind), (translateVa s va k).state? = some t →
    t = { s with r2 := t.r2, draws := t.draws } ∧ t.r2.hi.asid = s.r2.hi.asid ∧
    (s.cfg.volatility = .stable → t.r2 = s.r2) ∧
    (s.m = false ∨ va.toNat < 0x8000 → t = s)

/-- Rule R63: a fetch behaves as a read in every step of Translate, and neither raises TLB-Modification. -/
def Obligations.FetchIsTreatedAsRead : Prop :=
  ∀ (s t : State) (va : Word),
    (∀ pa, translateVa s va .fetch = .ok pa t ↔ translateVa s va .read = .ok pa t) ∧
    (∀ e, translateVa s va .fetch = .raised ⟨e, va, .fetch, none⟩ t ↔ translateVa s va .read = .raised ⟨e, va, .read, none⟩ t) ∧
    (∀ r, translateVa s va .fetch = .refused r ↔ translateVa s va .read = .refused r) ∧
    (∀ k x, k ≠ .write → translateVa s va k = .raised x t → x.exc ≠ .tlbModification)

/-- Rules R55, R153, R180: the slots of other ASIDs that are not global have no part in any access. Two machines whose TLBs agree on the
slots that are global or of the current ASID answer every Translate alike, whatever else their TLBs hold. The two share the count of
draws, so that of several matching slots the same one is drawn in both (notes/assumptions/3.md). -/
def Obligations.OtherAddressSpacesDoNotMatter : Prop :=
  ∀ (s s' : State) (va : Word) (k : Kind), s' = { s with tlb := s'.tlb } →
    s'.tlb.filter (fun e => e.lo.g || decide (e.hi.asid = s.r2.hi.asid)) =
      s.tlb.filter (fun e => e.lo.g || decide (e.hi.asid = s.r2.hi.asid)) →
    (translateVa s' va k).mapState (fun t => { t with tlb := s.tlb }) = translateVa s va k

/-! ## Memory -/

/-- Rule R65, the spec's decision D5: an access at an address that is no multiple of its width is refused, a fetch too. -/
def Obligations.MisalignedAccessesAreRefused : Prop :=
  ∀ (s : State) (va v : Word) (n : Width) (k : Kind), va.toNat % n.bytes ≠ 0 →
    memRead s va n k = .refused .misaligned ∧ memWrite s va n v = .refused .misaligned

/-- Rule R47: an access one of whose bytes is at an unidentified physical address raises BUSERROR and changes no memory; RAM is
identified and no address from RAMTOP up is (the spec's decision D27). -/
def Obligations.UnidentifiedMemoryRaisesBusError : Prop :=
  (∀ (s s1 : State) (va pa v : Word) (n : Width) (k : Kind), va.toNat % n.bytes = 0 →
    (∃ j, j < n.bytes ∧ placeOf s.cfg (pa.toNat + j) = .nothing) →
    (translateVa s va k = .ok pa s1 → memRead s va n k = .raised ⟨.busError, va, k, some pa⟩ s1) ∧
    (translateVa s va .write = .ok pa s1 → memWrite s va n v = .raised ⟨.busError, va, .write, some pa⟩ s1)) ∧
  (∀ (c : Config) (a : Nat), (0x7000 ≤ a → a < c.ramTop → placeOf c a ≠ .nothing) ∧
    (0x7000 ≤ a → c.ramTop ≤ a → placeOf c a = .nothing))

/-- Accesses below RAM (rules R44, R67, the spec's decision D27; which ranges a platform model has, and the order of the stops, are the
model's choice, notes/assumptions/13.md). Without a platform model they are refused. With one, an address in no range is unidentified,
one whose ranges are all ROM is ROM and one whose ranges are all device registers is a device; an access that touches a device and
nothing unidentified is refused; one to ROM alone is refused when it writes, and reads the bytes memory holds there, whatever its width
(the model's choice, notes/assumptions/34.md). -/
def Obligations.AccessesBelowRamFollowThePlatform : Prop :=
  (∀ (s s1 : State) (va pa v : Word) (n : Width) (k : Kind), va.toNat % n.bytes = 0 → pa.toNat + n.bytes ≤ 0x7000 →
    (s.cfg.bus = none →
      (translateVa s va k = .ok pa s1 → memRead s va n k = .refused .busFunctions) ∧
      (translateVa s va .write = .ok pa s1 → memWrite s va n v = .refused .busFunctions)) ∧
    (s.cfg.bus ≠ none → (∀ j, j < n.bytes → placeOf s.cfg (pa.toNat + j) ≠ .nothing) →
      (∃ j, j < n.bytes ∧ placeOf s.cfg (pa.toNat + j) = .device) →
      (translateVa s va k = .ok pa s1 → memRead s va n k = .refused .deviceAccess) ∧
      (translateVa s va .write = .ok pa s1 → memWrite s va n v = .refused .deviceAccess)) ∧
    ((∀ j, j < n.bytes → placeOf s.cfg (pa.toNat + j) = .rom) →
      (translateVa s va .write = .ok pa s1 → memWrite s va n v = .refused .romWrite) ∧
      (translateVa s va k = .ok pa s1 → ∀ bs, s.mem.readBytes pa.toNat n.bytes = some bs →
        memRead s va n k = .ok (s.cfg.byteOrder.assemble bs) s1))) ∧
  (∀ (c : Config) (rs : List BusRange) (a : Nat), c.bus = some rs → a < 0x7000 →
    ((∀ r, r ∈ rs → ¬ (r.base ≤ a ∧ a < r.base + r.size)) → placeOf c a = .nothing) ∧
    (∀ r, r ∈ rs → r.base ≤ a → a < r.base + r.size →
      (∀ q, q ∈ rs → q.base ≤ a → a < q.base + q.size → q.kind = r.kind) →
      placeOf c a = (match r.kind with | .rom => .rom | .device => .device)))

/-- Rule R46: a read of memory returns the bytes last written, by either byte order, and a write elsewhere does not show. -/
def Obligations.ReadReturnsTheLastWrite : Prop :=
  ∀ (s t : State) (a b : Nat) (n m : Width) (v : Word), physWrite s a n v = .ok t →
    physRead t a n = .ok (BitVec.ofNat 32 (v.toNat % 2 ^ (8 * n.bytes))) ∧
    (b + m.bytes ≤ a ∨ a + n.bytes ≤ b → physRead t b m = physRead s b m)

/-- Rules R46, R66: an aligned access whose bytes are all in RAM completes: a write always, a read when its bytes have been
written. -/
def Obligations.RamAccessesComplete : Prop :=
  ∀ (s s1 : State) (va pa v : Word) (n : Width) (k : Kind), va.toNat % n.bytes = 0 →
    0x7000 ≤ pa.toNat → pa.toNat + n.bytes ≤ s.cfg.ramTop →
    (translateVa s va .write = .ok pa s1 → ∃ t, memWrite s va n v = .ok () t) ∧
    (translateVa s va k = .ok pa s1 → (∀ a, pa.toNat ≤ a → a < pa.toNat + n.bytes → s.mem.read a ≠ none) →
      ∃ w, memRead s va n k = .ok w s1)

/-- The frame of a write (rules R9, R143): a write that completes changes the bytes at the physical address Translate gives, and
nothing else but what Translate changes. -/
def Obligations.WriteChangesItsBytesAlone : Prop :=
  ∀ (s t : State) (va v : Word) (n : Width), memWrite s va n v = .ok () t →
    ∃ pa s1, translateVa s va .write = .ok pa s1 ∧ t = { s1 with mem := t.mem } ∧
      ∀ a, a < pa.toNat ∨ pa.toNat + n.bytes ≤ a → t.mem.read a = s.mem.read a

/-- The frame of a read (rules R9, R22): a read or a fetch that completes gives the bytes at the physical address Translate gives, and
changes nothing but EntryHi.VPN20 and EntryLo (and the model's count of draws): rule R16, the spec's decisions D11 and D33
(notes/assumptions/15.md and 22.md). -/
def Obligations.ReadGivesTheTranslatedBytes : Prop :=
  ∀ (s t : State) (va w : Word) (n : Width) (k : Kind), memRead s va n k = .ok w t →
    ∃ pa, translateVa s va k = .ok pa t ∧ physRead s pa.toNat n = .ok w ∧ OnlyR2 s t

/-- Rule R144: an aligned access raises what Translate raises, so BUSERROR comes after every other exception: the physical access is
then never made. -/
def Obligations.AccessesRaiseWhatTranslateRaises : Prop :=
  ∀ (s s1 : State) (va v : Word) (n : Width) (k : Kind) (x : Trap), va.toNat % n.bytes = 0 →
    (translateVa s va k = .raised x s1 → memRead s va n k = .raised x s1) ∧
    (translateVa s va .write = .raised x s1 → memWrite s va n v = .raised x s1)

/-- Rule R68, the spec's decision D26 (notes/assumptions/21.md): a read returns the latest write to the same physical bytes, whatever
logical addresses the two accesses used. -/
def Obligations.AliasesAreTheSameMemory : Prop :=
  ∀ (s t t1 : State) (va va' v pa : Word) (n : Width) (s1 : State),
    translateVa s va .write = .ok pa s1 → memWrite s va n v = .ok () t →
    va'.toNat % n.bytes = 0 → translateVa t va' .read = .ok pa t1 →
    memRead t va' n .read = .ok (BitVec.ofNat 32 (v.toNat % 2 ^ (8 * n.bytes))) t1

/-- Rule R143: an access that raises performs nothing: no byte of memory, no word handed to CORE, no TLB slot, no pc changes; only
EntryHi.VPN20 and EntryLo may, by rule R16 (the spec's decisions D11 and D33, notes/assumptions/15.md and 22.md). Of the requests an
instruction of CORE has made before the one that raises, the first ones stand, as many as CORE says, and memory and the words handed to
CORE are as those left them: the spec leaves that open (91_not_in_source.md N22) and the choice is the model's (notes/assumptions/32.md). -/
def Obligations.ExceptionsArePrecise : Prop :=
  (∀ (s t : State) (va v : Word) (n : Width) (k : Kind) (x : Trap),
    (memRead s va n k = .raised x t ∨ memWrite s va n v = .raised x t) →
    t = { s with r2 := t.r2, draws := t.draws } ∧ t.r2.hi.asid = s.r2.hi.asid ∧ x.va = va ∧ ∀ a, t.mem.read a = s.mem.read a) ∧
  (∀ (s u v t : State) (before after : List Request) (r : Request) (stands : Nat) (x : Trap),
    Makes s before u → makeRequest r u = .raised x t → Makes s (before.take stands) v →
    makeRequests (before ++ r :: after) stands s.mem s.results s = .raised x { t with mem := v.mem, results := v.results })

/-! ## The step, exceptions and the refill -/

/-- A step runs the decoded instruction (rules R71, R72; the spec's decisions D26 and D37, notes/assumptions/21.md): when CORE makes no
move of its own, it is exec of the instruction that the word fetched at the pc decodes to, in the state the fetch leaves, and then the pc
moves past the instruction (the model's choice, notes/assumptions/9.md) and CORE goes on to what it does next (notes/assumptions/10.md).
An instruction whose condition fails, for CORE, has no effect (StepRunsLoadsAndStores; notes/assumptions/32.md). -/
def Obligations.StepRunsTheDecodedInstruction : Prop :=
  ∀ (s s1 : State) (w : Word) (i : Instr), s.Executes → (instrRun s.inputs).holds = true → fetch s = .ok w s1 →
    decode s.cfg.decode w s.source s.address = .term (.instr i) →
    step s = (match exec i s1 with
      | .next u => .next { u with pc := u.pc + BitVec.ofNat 32 u.cfg.insnWidth.bytes, inputs := afterInstruction s.inputs }
      | .fault r => .fault r
      | .refused r => .refused r)

/-- LOAD n, va hands CORE the word MemRead gives, STORE n, va, v is MemWrite (rules R9, R83), an instruction of CORE makes the requests
CORE supplies, in order and each after the one before it (decisions D6 and D32), and nothing after its fetch when it makes none; the pc
moves past each of them (the model's choice, notes/assumptions/9.md, 10.md and 32.md). An instruction whose condition fails, for CORE,
changes nothing after its fetch but the pc (notes/assumptions/32.md). -/
def Obligations.StepRunsLoadsAndStores : Prop :=
  ∀ (s s1 s2 : State) (w va v : Word) (n : Width), s.Executes → fetch s = .ok w s1 →
    ((instrRun s.inputs).holds = true →
      (decode s.cfg.decode w s.source s.address = .term (.load n va) → memRead s1 va n .read = .ok v s2 →
        step s = .next { s2 with
          results := v :: s.results
          pc := s.pc + BitVec.ofNat 32 s.cfg.insnWidth.bytes
          inputs := afterInstruction s.inputs }) ∧
      (decode s.cfg.decode w s.source s.address = .term (.store n va v) → memWrite s1 va n v = .ok () s2 →
        step s = .next { s2 with pc := s.pc + BitVec.ofNat 32 s.cfg.insnWidth.bytes, inputs := afterInstruction s.inputs }) ∧
      (decode s.cfg.decode w s.source s.address = .term .core → Makes s1 (instrRun s.inputs).requests s2 →
        step s = .next { s2 with pc := s.pc + BitVec.ofNat 32 s.cfg.insnWidth.bytes, inputs := afterInstruction s.inputs }) ∧
      (decode s.cfg.decode w s.source s.address = .term .core → (instrRun s.inputs).requests = [] →
        step s = .next { s1 with pc := s.pc + BitVec.ofNat 32 s.cfg.insnWidth.bytes, inputs := afterInstruction s.inputs })) ∧
    (∀ tm, (instrRun s.inputs).holds = false → decode s.cfg.decode w s.source s.address = .term tm →
      step s = .next { s1 with pc := s.pc + BitVec.ofNat 32 s.cfg.insnWidth.bytes, inputs := afterInstruction s.inputs })

/-- An instruction placed in memory runs: from every state whose pc translates to an aligned place in RAM, the encoding of every
instruction DECODE has a word for, stored there in either byte order, is fetched, decoded and executed by the next step. Placing it
clears a pending trap and CORE's moves (the model's choice, notes/assumptions/12.md), a fetch sees the store (the spec's decision D37,
notes/assumptions/21.md), and `advanced` moves the pc (notes/assumptions/9.md). What the fetch changes is rule R16's, with the decisions
D11 and D33 (notes/assumptions/15.md and 22.md). -/
def Obligations.PlacedInstructionsRun : Prop :=
  ∀ (s s1 : State) (pa : Word) (i : Instr), s.cfg.wf = true → i.wellFormed s.cfg.decode = true →
    translateVa s s.pc .fetch = .ok pa s1 → s.pc.toNat % s.cfg.insnWidth.bytes = 0 →
    0x7000 ≤ pa.toNat → pa.toNat + s.cfg.insnWidth.bytes ≤ s.cfg.ramTop →
    ∃ w src s2, encode s.cfg.decode i = some (w, src) ∧ fetch (placeInstruction s w src) = .ok w s2 ∧
      OnlyR2 (placeInstruction s w src) s2 ∧ (s.m = false → s2 = placeInstruction s w src) ∧
      step (placeInstruction s w src) = advanced (exec i s2)

/-- The minimal model of TRAP (rule R145, the spec's decision D25, notes/assumptions/11.md): an exception other than TLB-Miss, of the fetch
or of a data access, ends the run in the state trapped(E, va, kind), with the pc still at the instruction, and that state is terminal. A
TLB-Miss whose refill finds a bad Page Table, or no row, ends it in the Bad-PgTbl or the PTE-Miss of the access that missed (rules R126,
R128, R146); one whose refill is refused has no meaning. Memory is as it was, unless requests that an instruction of CORE has made before
are to stand (the model's choice, notes/assumptions/32.md); that a refill that ends so leaves memory and everything else is rule R130's
assumption on the BIOS, the spec's decision D23 (notes/assumptions/14.md). -/
def Obligations.AnExceptionEndsTheRun : Prop :=
  ∀ (s s1 : State) (x : Trap), StepRaises s x s1 →
    s1.pc = s.pc ∧ (s.NothingStands → s1.mem = s.mem ∧ s1.results = s.results) ∧ s1.tlb = s.tlb ∧
    (x.exc ≠ .tlbMiss → step s = .next { s1 with trap := some x }) ∧
    (x.exc = .tlbMiss → refillSearch s1 x.va = .ok .badTable →
      step s = .next { s1 with trap := some ⟨.badPgTbl, x.va, x.kind, none⟩ }) ∧
    (x.exc = .tlbMiss → refillSearch s1 x.va = .ok .noEntry →
      step s = .next { s1 with trap := some ⟨.pteMiss, x.va, x.kind, none⟩ }) ∧
    (∀ r, x.exc = .tlbMiss → refill s1 x.va x.kind = .refused r → step s = .refused r) ∧
    (∀ y, step { s1 with trap := some y } = .fault (.trapped y))

/-- Rule R148: a TLB-Miss that the refill serves resumes at the instruction that missed, which the next step executes again from its
fetch, with the mode, M and the ASID as they were, and with the requests CORE supplies to it as they were (notes/assumptions/32.md). That
the refill leaves memory, Index and the words handed to CORE is rule R130's assumption on the BIOS, the spec's decision D23
(notes/assumptions/14.md); that the access that missed leaves the ASID is D33 (notes/assumptions/22.md). -/
def Obligations.AServedMissIsRetried : Prop :=
  ∀ (s s1 : State) (x : Trap) (e : Pte), StepRaises s x s1 → x.exc = .tlbMiss → refillSearch s1 x.va = .ok (.entry e) →
    ∃ t, step s = .next t ∧ t.pc = s.pc ∧ t.cpsr = s.cpsr ∧ t.m = s.m ∧ t.r2.hi.asid = s.r2.hi.asid ∧ t.mem = s1.mem ∧
      t.index = s.index ∧ t.results = s1.results ∧ (s.NothingStands → t.mem = s.mem ∧ t.results = s.results) ∧
      t.inputs = s.inputs ∧ step t = runInstruction t

/-- Rule R126, its boundaries being the spec's decision D24: a Page Table that fails a check raises Bad-PgTbl, for the access that missed,
and nothing changes: what else a refill may change is the decision D23 (notes/assumptions/14.md). -/
def Obligations.BadPageTablesAreReported : Prop :=
  ∀ (s : State) (va t : Word) (k : Kind), TableOf s va t →
    (t.toNat ≤ 0x8000 ∨ t.toNat % 4 ≠ 0 ∨ s.cfg.ramTop < t.toNat + 4 ∨
      ∃ h, physRead s t.toNat .word = .ok h ∧ ((h.extractLsb' 24 8).toNat ≠ 0x2A ∨
        s.cfg.ramTop ≤ t.toNat + (4 + 8 * (h.extractLsb' 0 20).toNat))) →
    refill s va k = .raised ⟨.badPgTbl, va, k, none⟩ s

/-- Rules R127, R128: the refill searches the rows in order and loads the first that matches (the spec's decision D36), whatever its V and
D flags are and whatever follows it, into one slot among 1 to TLBSIZE - 1. -/
def Obligations.RefillLoadsTheFirstMatchingRow : Prop :=
  ∀ (s : State) (va t h : Word) (k : Kind) (j : Nat) (e : Pte), s.TlbSizeOk → s.RandomOk → TableOf s va t → GoodTable s t h →
    j < (h.extractLsb' 0 20).toNat →
    (∀ i, i < j → ∃ r, RowIs s t i r ∧ ¬ Matches r (va.extractLsb' 12 20) s.r2.hi.asid) →
    RowIs s t j e → Matches e (va.extractLsb' 12 20) s.r2.hi.asid →
    ∃ u, refill s va k = .ok () u ∧ 1 ≤ u.random.toNat ∧ u.random.toNat ≤ s.tlbSize - 1 ∧
      u.tlb[u.random.toNat]? = some e ∧ ∀ i : Nat, i ≠ u.random.toNat → u.tlb[i]? = s.tlb[i]?

/-- Rule R128: when no row of a well-formed Page Table matches, the refill raises PTE-Miss, for the access that missed, and nothing
changes: what else a refill may change is the decision D23 (notes/assumptions/14.md). -/
def Obligations.RefillWithoutAMatchRaisesPteMiss : Prop :=
  ∀ (s : State) (va t h : Word) (k : Kind), TableOf s va t → GoodTable s t h →
    (∀ i, i < (h.extractLsb' 0 20).toNat → ∃ r, RowIs s t i r ∧ ¬ Matches r (va.extractLsb' 12 20) s.r2.hi.asid) →
    refill s va k = .raised ⟨.pteMiss, va, k, none⟩ s

/-- Where the Segment Table row of an access stands (rule R123, the spec's decision D22; the two forms of the parameter and the order of the
listed addresses are the model's choice, notes/assumptions/28.md): with a base, at base + 12 * ASID + 0, 4 or 8 for an address of Kseg0,
Useg2 or Useg3; with a list, at the address listed for the ASID and the segment, three for each ASID. Rule R130: a row outside identified
memory gives the refill no meaning. The source does not say what the BIOS does then, and the refusal is the spec's own choice
(notes/assumptions/16.md). -/
def Obligations.SegmentTableOutsideMemoryIsRefused : Prop :=
  (∀ (base : Nat) (asid : BitVec 7) (va : Word), segTableAddress (.rows base) asid (segmentOf va) =
    base + 12 * asid.toNat + (if va.toNat < 0x80000000 then 0 else if va.toNat < 0xC0000000 then 4 else 8)) ∧
  (∀ (listed : List Nat) (asid : BitVec 7) (va : Word) (a : Nat),
    listed[3 * asid.toNat + (if va.toNat < 0x80000000 then 0 else if va.toNat < 0xC0000000 then 1 else 2)]? = some a →
    segTableAddress (.listed listed) asid (segmentOf va) = a) ∧
  (∀ (s : State) (va : Word) (k : Kind),
    (∃ j, j < 4 ∧ placeOf s.cfg (segTableAddress s.cfg.segTable s.r2.hi.asid (segmentOf va) + j) = .nothing) →
    refill s va k = .refused .refillReadOutsideMemory)

/-- Rule R130, whose assumptions on the BIOS are the spec's decision D23 (notes/assumptions/14.md): a refill that loads puts the entry it
found into the one slot that Random names when it is observed (the model's choice, notes/assumptions/8.md), and besides that slot, CP15.R2
and Random itself (and the model's count of draws) leaves everything as it was, and of CP15.R2 the ASID; one that raises leaves
everything. -/
def Obligations.RefillLeavesTheRest : Prop :=
  ∀ (s t : State) (va : Word) (k : Kind) (x : Trap),
    (refill s va k = .ok () t →
      (∃ e, refillSearch s va = .ok (.entry e) ∧ t.tlb = s.tlb.set t.random.toNat e) ∧ t.random = s.observeRandom.random ∧
      t = { s with tlb := t.tlb, r2 := t.r2, random := t.random, draws := t.draws } ∧ t.r2.hi.asid = s.r2.hi.asid ∧
      t.tlbSize = s.tlbSize) ∧
    (refill s va k = .raised x t → t = s ∧ (x.exc = .badPgTbl ∨ x.exc = .pteMiss) ∧ x.va = va ∧ x.kind = k)

/-- Rule R129: after a refill that loaded an entry the retried access does not miss, because the refill is atomic and leaves the ASID,
which is rule R130's assumption, the spec's decision D23 (notes/assumptions/14.md). -/
def Obligations.ARefilledAccessDoesNotMiss : Prop :=
  ∀ (s t u : State) (va : Word) (k k' : Kind) (x : Trap), s.TlbSizeOk → s.RandomOk → refill s va k = .ok () t →
    translateVa t va k' = .raised x u → x.exc ≠ .tlbMiss

/-- What CORE does by itself, between two instructions, changes the one register it puts a value into (notes/assumptions/10.md: the
model's choice). -/
def Obligations.CoreMovesChangeOneRegister : Prop :=
  ∀ (s : State) (x : CoreMove) (xs : List CoreInput), s.trap = none → s.inputs = .move x :: xs →
    step s = .next (match x with
      | .cpsr w => { s with inputs := xs, cpsr := w }
      | .pc w => { s with inputs := xs, pc := w }
      | .source w => { s with inputs := xs, source := w }
      | .address w => { s with inputs := xs, address := w })

/-! ## DECODE -/

/-- Decode and encode agree: under every well-formed DECODE, every instruction that has a word is encoded by it, with every operand, and
decoding that word, and its bytes in memory in either byte order, gives the instruction back, whatever address CORE supplies. -/
def Obligations.DecodeOfEncodeIsTheInstruction : Prop :=
  ∀ (c : Config) (i : Instr) (addr : Word), c.wf = true → i.wellFormed c.decode = true →
    ∃ w src, encode c.decode i = some (w, src) ∧ decode c.decode w src addr = .term (.instr i) ∧
      decodeBytes c (c.byteOrder.split c.insnWidth.bytes w) src addr = .term (.instr i)

/-- Rule R91: an instruction word that DECODE maps to no term is rejected, and the step that fetches it is refused. -/
def Obligations.UnknownWordsAreRefused : Prop :=
  ∀ (s s1 : State) (w : Word), (∀ r, r ∈ s.cfg.decode → r.word ≠ w) →
    decode s.cfg.decode w s.source s.address = .undecodable ∧
    (s.Executes → fetch s = .ok w s1 → step s = .refused .undecodable)

/-- The stand-in words of the standard configuration, all fifteen of the seven instructions (notes/assumptions/2.md: the model's choice, no
encoding of the hardware), and three words that stand for none of them. -/
def Obligations.StandardWordsDecode : Prop :=
  decodeTableWord 64 0x01 = some .tlbwi ∧ decodeTableWord 64 0x02 = some .tlbwr ∧ decodeTableWord 64 0x03 = some .tlbr ∧
  decodeTableWord 64 0x04 = some .tlbp ∧ decodeTableWord 64 0x05 = some .tlbclr ∧
  decodeTableWord 64 0x11 = some (.cp15read .r1) ∧ decodeTableWord 64 0x12 = some (.cp15read .entryHi) ∧
  decodeTableWord 64 0x13 = some (.cp15read .entryLo) ∧ decodeTableWord 64 0x14 = some (.cp15read .r8) ∧
  decodeTableWord 64 0x15 = some (.cp15read .r10) ∧
  decodeTableWord 64 0x0000000100000021 = some (.cp15write .r1 1) ∧
  decodeTableWord 64 0x800000A000000022 = some (.cp15write .entryHi 0x800000A0) ∧
  decodeTableWord 64 0x0002060000000023 = some (.cp15write .entryLo 0x00020600) ∧
  decodeTableWord 64 0x0000000700000024 = some (.cp15write .r8 7) ∧
  decodeTableWord 64 0x80003F0000000025 = some (.cp15write .r10 0x80003F00) ∧
  decodeTableWord 64 0x00 = none ∧ decodeTableWord 64 0x06 = none ∧ decodeTableWord 64 0x30 = none

/-! ## Sequences and whole-machine rules -/

/-- Rules R90, R106, R107: the fields a CP15WRITE puts into R1, EntryHi, EntryLo or R10 are the fields a CP15READ that follows gives,
for every layout that fits. That a write of R10 takes P too is the spec's decision D30 (notes/assumptions/25.md). -/
def Obligations.RegisterWordsReadBack : Prop :=
  ∀ (s s1 s2 : State) (w : Word) (reg : Cp15Reg), s.cfg.wf = true →
    exec (.cp15write reg w) s = .next s1 → exec (.cp15read reg) s1 = .next s2 →
    ∃ v, s2.results = v :: s.results ∧
      (match reg with
       | .r1 => getFlag v s.cfg.m = getFlag w s.cfg.m
       | .entryHi => hiFields s.cfg.hi v = hiFields s.cfg.hi w
       | .entryLo => loFields s.cfg.lo v = loFields s.cfg.lo w
       | .r8 => False
       | .r10 => indexFields s.cfg.index v = indexFields s.cfg.index w)

/-- Rules R71, R101: a valid entry that TLBWI installs is seen by the very next Translate (the spec's decision D26,
notes/assumptions/21.md): when no other slot matches its page, a read of the page goes to its frame, and a write too when D is set. -/
def Obligations.AnInstalledEntryTranslates : Prop :=
  ∀ (s t : State) (va : Word) (k : Kind), exec .tlbwi s = .next t → s.m = true → 0x8000 ≤ va.toNat →
    va.extractLsb' 12 20 = s.r2.hi.vpn20 → s.r2.lo.v = true → (k = .write → s.r2.lo.d = true) →
    (∀ (j : Nat) (e : Pte), j ≠ s.index.tlbIndex.toNat → s.tlb[j]? = some e → ¬ Matches e s.r2.hi.vpn20 s.r2.hi.asid) →
    ∃ u, translateVa t va k = .ok (physicalOf s.r2.lo.pfn (offsetOf va)) u

/-- Rule R105: after TLBCLR every translated access to a page that slot 0 does not map raises TLB-Miss: a zeroed slot matches no
access. That every field is zeroed is the spec's decision D38 (notes/assumptions/25.md), that the very next access sees it D26
(notes/assumptions/21.md). -/
def Obligations.AfterTlbclrOnlyTheSafeSlotTranslates : Prop :=
  ∀ (s t : State) (va : Word) (k : Kind), exec .tlbclr s = .next t → s.m = true → 0x8000 ≤ va.toNat →
    (∀ e, s.tlb[0]? = some e → ¬ Matches e (va.extractLsb' 12 20) s.r2.hi.asid) →
    ∃ u, translateVa t va k = .raised ⟨.tlbMiss, va, k, none⟩ u

/-- User mode cannot write the reserved address space (rules R53, R61, R152): no step in User mode, whatever it executes and however the
TLB translates, changes a byte below 0x0000.8000. For a translation into the reserved space this
holds because the spec gives it no meaning and the model refuses it (decision D10, notes/assumptions/16.md). For the refill in such a step
it is rule R130's assumption that the BIOS writes no memory, the Kernel Reserved Frame included (decision D23, notes/assumptions/14.md). -/
def Obligations.UserModeNeverWritesReservedMemory : Prop :=
  ∀ s t : State, s.mode = .user → step s = .next t → ∀ a, a < 0x8000 → t.mem.read a = s.mem.read a

/-- User mode cannot change how it is translated (rules R100 e, R152), because the spec gives the seven instructions no meaning there
(decision D18, notes/assumptions/16.md): a step in User mode, a move of CORE included, leaves M, Index, the ASID and the safe slot as they
were; it changes CPSR only by a move of CORE, and a TLB slot only through the refill of the TLB-Miss that it raises. That the refill
leaves Index and the ASID is rule R130's assumption (decision D23, notes/assumptions/14.md); that a translated access leaves the ASID is
the decision D33 (notes/assumptions/22.md). That no instruction of CORE changes CPSR, but a move between two instructions does, is the
model's choice (notes/assumptions/10.md). -/
def Obligations.UserModeLeavesTheTranslationState : Prop :=
  ∀ s t : State, s.TlbSizeOk → s.RandomOk → s.mode = .user → step s = .next t →
    t.m = s.m ∧ t.index = s.index ∧ t.r2.hi.asid = s.r2.hi.asid ∧ t.tlb[0]? = s.tlb[0]? ∧
    (s.Executes → t.cpsr = s.cpsr) ∧
    (t.tlb = s.tlb ∨ ∃ (x : Trap) (s1 : State) (e : Pte), StepRaises s x s1 ∧ x.exc = .tlbMiss ∧
      refillSearch s1 x.va = .ok (.entry e) ∧ t.tlb = s.tlb.set t.random.toNat e)
end

