-- ==== Sys2Proof/Laws/Bits.lean ====
section
/-! SUPPORT. Fields of words (a placed field reads back, and placing one leaves a disjoint one alone) and bytes of words (a word split
into bytes assembles again), for both byte orders. -/

namespace Sys2Proof

/-! ## Fields -/

namespace Machine

/-- A bit of a word in which a field was placed. -/
theorem putField_getLsbD (w : Word) (lo : Nat) {k : Nat} (v : BitVec k) (i : Nat) (hi : i < 32) :
    (putField w lo v).getLsbD i = if lo ≤ i ∧ i < lo + k then v.getLsbD (i - lo) else w.getLsbD i := by
  by_cases hlo : lo ≤ i
  · by_cases hk : i < lo + k
    · have h2 : i - lo < k := by omega
      have h3 : ¬ i < lo := by omega
      simp [putField, hi, hlo, hk, h2, h3]
    · have hv : v.getLsbD (i - lo) = false := BitVec.getLsbD_of_ge _ _ (by omega)
      have h2 : ¬ i - lo < k := by omega
      simp [putField, hi, hk, hv, h2]
  · have h3 : i < lo := by omega
    simp [putField, hi, hlo, h3]

/-- A placed field reads back. -/
theorem getField_putField_same (w : Word) (lo : Nat) {k : Nat} (v : BitVec k) (h : lo + k ≤ 32) :
    getField (putField w lo v) lo k = v := by
  apply BitVec.eq_of_getLsbD_eq
  intro i hi
  have := putField_getLsbD w lo v (lo + i) (by omega)
  simp [getField, hi, this]

/-- Placing a field leaves a disjoint one alone. -/
theorem getField_putField_disjoint (w : Word) (lo : Nat) {k : Nat} (v : BitVec k) (lo' k' : Nat) (h' : lo' + k' ≤ 32)
    (h : rangesDisjoint (lo, k) (lo', k') = true) : getField (putField w lo v) lo' k' = getField w lo' k' := by
  apply BitVec.eq_of_getLsbD_eq
  intro i hi
  have hd : lo + k ≤ lo' ∨ lo' + k' ≤ lo := by simpa [rangesDisjoint] using h
  have := putField_getLsbD w lo v (lo' + i) (by omega)
  have hn : ¬ (lo ≤ lo' + i ∧ lo' + i < lo + k) := by omega
  simp [getField, hi, this, hn]

/-- A flag is a field of one bit. -/
theorem getFlag_eq_getField (w : Word) (i : Nat) : getFlag w i = (getField w i 1).getLsbD 0 := by
  simp [getFlag, getField]

theorem getFlag_putFlag_same (w : Word) (i : Nat) (b : Bool) (h : i + 1 ≤ 32) : getFlag (putFlag w i b) i = b := by
  rw [getFlag_eq_getField, putFlag, getField_putField_same _ _ _ h]
  simp

theorem getFlag_putField_disjoint (w : Word) (lo : Nat) {k : Nat} (v : BitVec k) (i : Nat) (hi : i + 1 ≤ 32)
    (h : rangesDisjoint (lo, k) (i, 1) = true) : getFlag (putField w lo v) i = getFlag w i := by
  rw [getFlag_eq_getField, getFlag_eq_getField, getField_putField_disjoint _ _ _ _ _ hi h]

theorem rangesDisjoint_comm (a b : Nat × Nat) : rangesDisjoint a b = rangesDisjoint b a := by
  simp [rangesDisjoint, Bool.or_comm]

/-- EntryHi placed by a layout that fits reads back. -/
theorem hiFields_placeHi (l : HiLayout) (e : EntryHi) (w : Word)
    (h : rangesFit [(l.vpn20, 20), (l.asid, 7)] = true) : hiFields l (placeHi l e w) = e := by
  simp only [rangesFit, List.all_cons, List.all_nil, Bool.and_true, Bool.and_eq_true, decide_eq_true_eq] at h
  obtain ⟨⟨h1, hd⟩, h2⟩ := h
  simp only [hiFields, placeHi]
  rw [getField_putField_same _ _ _ h2, getField_putField_disjoint _ _ _ _ _ h1 (by rw [rangesDisjoint_comm]; exact hd),
    getField_putField_same _ _ _ h1]

/-- EntryLo placed by a layout that fits reads back. -/
theorem loFields_placeLo (l : LoLayout) (e : EntryLo) (w : Word)
    (h : rangesFit [(l.pfn, 20), (l.d, 1), (l.v, 1), (l.g, 1)] = true) : loFields l (placeLo l e w) = e := by
  simp only [rangesFit, List.all_cons, List.all_nil, Bool.and_true, Bool.and_eq_true, decide_eq_true_eq] at h
  obtain ⟨⟨h1, hpd, hpv, hpg⟩, ⟨h2, hdv, hdg⟩, ⟨h3, hvg⟩, h4⟩ := h
  have c := rangesDisjoint_comm
  simp only [loFields, placeLo, putFlag]
  rw [getField_putField_disjoint _ _ _ _ _ h1 (by rw [c]; exact hpg), getField_putField_disjoint _ _ _ _ _ h1 (by rw [c]; exact hpv),
    getField_putField_disjoint _ _ _ _ _ h1 (by rw [c]; exact hpd), getField_putField_same _ _ _ h1,
    getFlag_putField_disjoint _ _ _ _ h2 (by rw [c]; exact hdg), getFlag_putField_disjoint _ _ _ _ h2 (by rw [c]; exact hdv),
    getFlag_putField_disjoint _ _ _ _ h3 (by rw [c]; exact hvg)]
  have s1 := fun w : Word => getFlag_putFlag_same w l.d e.d h2
  have s2 := fun w : Word => getFlag_putFlag_same w l.v e.v h3
  have s3 := fun w : Word => getFlag_putFlag_same w l.g e.g h4
  simp only [putFlag] at s1 s2 s3
  rw [s1, s2, s3]

/-- Index placed by a layout that fits reads back. -/
theorem indexFields_placeIndex (l : IndexLayout) (x : Index) (w : Word)
    (h : rangesFit [(l.tlbIndex, 6), (l.p, 1)] = true) : indexFields l (placeIndex l x w) = x := by
  simp only [rangesFit, List.all_cons, List.all_nil, Bool.and_true, Bool.and_eq_true, decide_eq_true_eq] at h
  obtain ⟨⟨h1, hd⟩, h2⟩ := h
  simp only [indexFields, placeIndex, getFlag_putFlag_same _ _ _ h2]
  rw [putFlag, getField_putField_disjoint _ _ _ _ _ h1 (by rw [rangesDisjoint_comm]; exact hd), getField_putField_same _ _ _ h1]

/-! ## Addresses -/

@[simp] theorem offsetOf_physicalOf (p : BitVec 20) (o : BitVec 12) : offsetOf (physicalOf p o) = o := by
  apply BitVec.eq_of_getLsbD_eq
  intro i hi
  have h := BitVec.getLsbD_append (x := p) (y := o) (i := i)
  simp only [hi, if_true] at h
  simpa [offsetOf, physicalOf, hi] using h

theorem toNat_physicalOf (p : BitVec 20) (o : BitVec 12) : (physicalOf p o).toNat = p.toNat * 4096 + o.toNat := by
  have h := Nat.two_pow_add_eq_or_of_lt o.isLt p.toNat
  rw [physicalOf, BitVec.toNat_append, Nat.shiftLeft_eq, Nat.mul_comm, ← h, Nat.mul_comm]

theorem toNat_vpn20Of (va : Word) : (vpn20Of va).toNat = va.toNat / 4096 := by
  have := va.isLt
  simp [vpn20Of, BitVec.extractLsb', Nat.shiftRight_eq_div_pow]
  omega

theorem toNat_offsetOf (va : Word) : (offsetOf va).toNat = va.toNat % 4096 := by
  simp [offsetOf, BitVec.extractLsb']

/-- Bit 31 is clear exactly below 0x8000.0000 (rule R50). -/
theorem kernelSegment_iff (va : Word) : kernelSegment va = true ↔ va.toNat < 0x80000000 := by
  have h := va.isLt
  simp only [kernelSegment, Bool.not_eq_true', BitVec.getLsbD, Nat.testBit_eq_decide_div_mod_eq, decide_eq_false_iff_not]
  omega

theorem reserved_iff (va : Word) : reserved va = true ↔ va.toNat < 0x8000 := decide_eq_true_iff

theorem reserved_eq_false_iff (va : Word) : reserved va = false ↔ 0x8000 ≤ va.toNat :=
  decide_eq_false_iff_not.trans Nat.not_lt

end Machine

/-! ## Bytes -/

@[simp] theorem length_littleBytes (n v : Nat) : (littleBytes n v).length = n := by
  induction n generalizing v with
  | zero => rfl
  | succ n ih => simp [littleBytes, ih]

theorem littleNat_littleBytes (n v : Nat) : littleNat (littleBytes n v) = v % 256 ^ n := by
  induction n generalizing v with
  | zero => simp [littleBytes, littleNat, Nat.mod_one]
  | succ n ih =>
    have h := Nat.mod_mul (x := v) (a := 256) (b := 256 ^ n)
    have hp : 256 ^ (n + 1) = 256 * 256 ^ n := by rw [Nat.pow_succ, Nat.mul_comm]
    simp only [littleBytes, littleNat, ih, BitVec.toNat_ofNat]
    rw [hp, h]

@[simp] theorem ByteOrder.length_split (o : ByteOrder) (n : Nat) (v : Word) : (o.split n v).length = n := by
  cases o <;> simp [ByteOrder.split]

/-- The n low bytes of a word assemble to the number they make. -/
theorem ByteOrder.assemble_split (o : ByteOrder) (n : Nat) (v : Word) :
    o.assemble (o.split n v) = BitVec.ofNat 32 (v.toNat % 256 ^ n) := by
  cases o <;> simp [ByteOrder.assemble, ByteOrder.split, littleNat_littleBytes]

end Sys2Proof
end

