-- ==== Sys2Proof/Laws/State.lean ====
section
/-! SUPPORT. One lemma per field of State per update of it, each true by rfl. -/

namespace Sys2Proof.Machine

variable (s : State)

/-! ### State.setSlot -/

@[simp] theorem State.setSlot_cfg (i : Nat) (e : Pte) : (s.setSlot i e).cfg = s.cfg := rfl
@[simp] theorem State.setSlot_pc (i : Nat) (e : Pte) : (s.setSlot i e).pc = s.pc := rfl
@[simp] theorem State.setSlot_cpsr (i : Nat) (e : Pte) : (s.setSlot i e).cpsr = s.cpsr := rfl
@[simp] theorem State.setSlot_m (i : Nat) (e : Pte) : (s.setSlot i e).m = s.m := rfl
@[simp] theorem State.setSlot_r2 (i : Nat) (e : Pte) : (s.setSlot i e).r2 = s.r2 := rfl
@[simp] theorem State.setSlot_index (i : Nat) (e : Pte) : (s.setSlot i e).index = s.index := rfl
@[simp] theorem State.setSlot_random (i : Nat) (e : Pte) : (s.setSlot i e).random = s.random := rfl
@[simp] theorem State.setSlot_tlb (i : Nat) (e : Pte) : (s.setSlot i e).tlb = s.tlb.set i e := rfl
@[simp] theorem State.setSlot_mem (i : Nat) (e : Pte) : (s.setSlot i e).mem = s.mem := rfl
@[simp] theorem State.setSlot_trap (i : Nat) (e : Pte) : (s.setSlot i e).trap = s.trap := rfl
@[simp] theorem State.setSlot_results (i : Nat) (e : Pte) : (s.setSlot i e).results = s.results := rfl
@[simp] theorem State.setSlot_source (i : Nat) (e : Pte) : (s.setSlot i e).source = s.source := rfl
@[simp] theorem State.setSlot_address (i : Nat) (e : Pte) : (s.setSlot i e).address = s.address := rfl
@[simp] theorem State.setSlot_inputs (i : Nat) (e : Pte) : (s.setSlot i e).inputs = s.inputs := rfl
@[simp] theorem State.setSlot_draws (i : Nat) (e : Pte) : (s.setSlot i e).draws = s.draws := rfl
@[simp] theorem State.setSlot_tlbSize (i : Nat) (e : Pte) : (s.setSlot i e).tlbSize = s.tlbSize := by simp [State.tlbSize]
@[simp] theorem State.setSlot_mode (i : Nat) (e : Pte) : (s.setSlot i e).mode = s.mode := rfl

/-! ### State.give -/

@[simp] theorem State.give_cfg (w : Word) : (s.give w).cfg = s.cfg := rfl
@[simp] theorem State.give_pc (w : Word) : (s.give w).pc = s.pc := rfl
@[simp] theorem State.give_cpsr (w : Word) : (s.give w).cpsr = s.cpsr := rfl
@[simp] theorem State.give_m (w : Word) : (s.give w).m = s.m := rfl
@[simp] theorem State.give_r2 (w : Word) : (s.give w).r2 = s.r2 := rfl
@[simp] theorem State.give_index (w : Word) : (s.give w).index = s.index := rfl
@[simp] theorem State.give_random (w : Word) : (s.give w).random = s.random := rfl
@[simp] theorem State.give_tlb (w : Word) : (s.give w).tlb = s.tlb := rfl
@[simp] theorem State.give_mem (w : Word) : (s.give w).mem = s.mem := rfl
@[simp] theorem State.give_trap (w : Word) : (s.give w).trap = s.trap := rfl
@[simp] theorem State.give_results (w : Word) : (s.give w).results = w :: s.results := rfl
@[simp] theorem State.give_source (w : Word) : (s.give w).source = s.source := rfl
@[simp] theorem State.give_address (w : Word) : (s.give w).address = s.address := rfl
@[simp] theorem State.give_inputs (w : Word) : (s.give w).inputs = s.inputs := rfl
@[simp] theorem State.give_draws (w : Word) : (s.give w).draws = s.draws := rfl
@[simp] theorem State.give_tlbSize (w : Word) : (s.give w).tlbSize = s.tlbSize := rfl
@[simp] theorem State.give_mode (w : Word) : (s.give w).mode = s.mode := rfl

/-! ### State.advance -/

@[simp] theorem State.advance_cfg : s.advance.cfg = s.cfg := rfl
@[simp] theorem State.advance_pc : s.advance.pc = s.pc + BitVec.ofNat 32 s.cfg.insnWidth.bytes := rfl
@[simp] theorem State.advance_cpsr : s.advance.cpsr = s.cpsr := rfl
@[simp] theorem State.advance_m : s.advance.m = s.m := rfl
@[simp] theorem State.advance_r2 : s.advance.r2 = s.r2 := rfl
@[simp] theorem State.advance_index : s.advance.index = s.index := rfl
@[simp] theorem State.advance_random : s.advance.random = s.random := rfl
@[simp] theorem State.advance_tlb : s.advance.tlb = s.tlb := rfl
@[simp] theorem State.advance_mem : s.advance.mem = s.mem := rfl
@[simp] theorem State.advance_trap : s.advance.trap = s.trap := rfl
@[simp] theorem State.advance_results : s.advance.results = s.results := rfl
@[simp] theorem State.advance_source : s.advance.source = s.source := rfl
@[simp] theorem State.advance_address : s.advance.address = s.address := rfl
@[simp] theorem State.advance_inputs : s.advance.inputs = afterInstruction s.inputs := rfl
@[simp] theorem State.advance_draws : s.advance.draws = s.draws := rfl
@[simp] theorem State.advance_tlbSize : s.advance.tlbSize = s.tlbSize := rfl
@[simp] theorem State.advance_mode : s.advance.mode = s.mode := rfl

/-! ### State.takeException -/

@[simp] theorem State.takeException_cfg (t : Trap) : (s.takeException t).cfg = s.cfg := rfl
@[simp] theorem State.takeException_pc (t : Trap) : (s.takeException t).pc = s.pc := rfl
@[simp] theorem State.takeException_cpsr (t : Trap) : (s.takeException t).cpsr = s.cpsr := rfl
@[simp] theorem State.takeException_m (t : Trap) : (s.takeException t).m = s.m := rfl
@[simp] theorem State.takeException_r2 (t : Trap) : (s.takeException t).r2 = s.r2 := rfl
@[simp] theorem State.takeException_index (t : Trap) : (s.takeException t).index = s.index := rfl
@[simp] theorem State.takeException_random (t : Trap) : (s.takeException t).random = s.random := rfl
@[simp] theorem State.takeException_tlb (t : Trap) : (s.takeException t).tlb = s.tlb := rfl
@[simp] theorem State.takeException_mem (t : Trap) : (s.takeException t).mem = s.mem := rfl
@[simp] theorem State.takeException_trap (t : Trap) : (s.takeException t).trap = some t := rfl
@[simp] theorem State.takeException_results (t : Trap) : (s.takeException t).results = s.results := rfl
@[simp] theorem State.takeException_source (t : Trap) : (s.takeException t).source = s.source := rfl
@[simp] theorem State.takeException_address (t : Trap) : (s.takeException t).address = s.address := rfl
@[simp] theorem State.takeException_inputs (t : Trap) : (s.takeException t).inputs = s.inputs := rfl
@[simp] theorem State.takeException_draws (t : Trap) : (s.takeException t).draws = s.draws := rfl
@[simp] theorem State.takeException_tlbSize (t : Trap) : (s.takeException t).tlbSize = s.tlbSize := rfl
@[simp] theorem State.takeException_mode (t : Trap) : (s.takeException t).mode = s.mode := rfl

/-! ### State.resume -/

@[simp] theorem State.resume_cfg (insn : Word) : (s.resume insn).cfg = s.cfg := rfl
@[simp] theorem State.resume_pc (insn : Word) : (s.resume insn).pc = insn := rfl
@[simp] theorem State.resume_cpsr (insn : Word) : (s.resume insn).cpsr = s.cpsr := rfl
@[simp] theorem State.resume_m (insn : Word) : (s.resume insn).m = s.m := rfl
@[simp] theorem State.resume_r2 (insn : Word) : (s.resume insn).r2 = s.r2 := rfl
@[simp] theorem State.resume_index (insn : Word) : (s.resume insn).index = s.index := rfl
@[simp] theorem State.resume_random (insn : Word) : (s.resume insn).random = s.random := rfl
@[simp] theorem State.resume_tlb (insn : Word) : (s.resume insn).tlb = s.tlb := rfl
@[simp] theorem State.resume_mem (insn : Word) : (s.resume insn).mem = s.mem := rfl
@[simp] theorem State.resume_trap (insn : Word) : (s.resume insn).trap = s.trap := rfl
@[simp] theorem State.resume_results (insn : Word) : (s.resume insn).results = s.results := rfl
@[simp] theorem State.resume_source (insn : Word) : (s.resume insn).source = s.source := rfl
@[simp] theorem State.resume_address (insn : Word) : (s.resume insn).address = s.address := rfl
@[simp] theorem State.resume_inputs (insn : Word) : (s.resume insn).inputs = s.inputs := rfl
@[simp] theorem State.resume_draws (insn : Word) : (s.resume insn).draws = s.draws := rfl
@[simp] theorem State.resume_tlbSize (insn : Word) : (s.resume insn).tlbSize = s.tlbSize := rfl
@[simp] theorem State.resume_mode (insn : Word) : (s.resume insn).mode = s.mode := rfl

/-! ### State.havocLo -/

@[simp] theorem State.havocLo_cfg : s.havocLo.cfg = s.cfg := rfl
@[simp] theorem State.havocLo_pc : s.havocLo.pc = s.pc := rfl
@[simp] theorem State.havocLo_cpsr : s.havocLo.cpsr = s.cpsr := rfl
@[simp] theorem State.havocLo_m : s.havocLo.m = s.m := rfl
@[simp] theorem State.havocLo_r2 : s.havocLo.r2 = { s.r2 with lo := freeLo s.draws } := rfl
@[simp] theorem State.havocLo_index : s.havocLo.index = s.index := rfl
@[simp] theorem State.havocLo_random : s.havocLo.random = s.random := rfl
@[simp] theorem State.havocLo_tlb : s.havocLo.tlb = s.tlb := rfl
@[simp] theorem State.havocLo_mem : s.havocLo.mem = s.mem := rfl
@[simp] theorem State.havocLo_trap : s.havocLo.trap = s.trap := rfl
@[simp] theorem State.havocLo_results : s.havocLo.results = s.results := rfl
@[simp] theorem State.havocLo_source : s.havocLo.source = s.source := rfl
@[simp] theorem State.havocLo_address : s.havocLo.address = s.address := rfl
@[simp] theorem State.havocLo_inputs : s.havocLo.inputs = s.inputs := rfl
@[simp] theorem State.havocLo_draws : s.havocLo.draws = s.draws + 4 := rfl
@[simp] theorem State.havocLo_tlbSize : s.havocLo.tlbSize = s.tlbSize := rfl
@[simp] theorem State.havocLo_mode : s.havocLo.mode = s.mode := rfl

/-! ### State.havocR2 -/

@[simp] theorem State.havocR2_cfg : s.havocR2.cfg = s.cfg := rfl
@[simp] theorem State.havocR2_pc : s.havocR2.pc = s.pc := rfl
@[simp] theorem State.havocR2_cpsr : s.havocR2.cpsr = s.cpsr := rfl
@[simp] theorem State.havocR2_m : s.havocR2.m = s.m := rfl
@[simp] theorem State.havocR2_r2 : s.havocR2.r2 = { hi := { s.r2.hi with vpn20 := BitVec.ofNat 20 (Config.free s.draws) }, lo := freeLo (s.draws + 1) } := rfl
@[simp] theorem State.havocR2_index : s.havocR2.index = s.index := rfl
@[simp] theorem State.havocR2_random : s.havocR2.random = s.random := rfl
@[simp] theorem State.havocR2_tlb : s.havocR2.tlb = s.tlb := rfl
@[simp] theorem State.havocR2_mem : s.havocR2.mem = s.mem := rfl
@[simp] theorem State.havocR2_trap : s.havocR2.trap = s.trap := rfl
@[simp] theorem State.havocR2_results : s.havocR2.results = s.results := rfl
@[simp] theorem State.havocR2_source : s.havocR2.source = s.source := rfl
@[simp] theorem State.havocR2_address : s.havocR2.address = s.address := rfl
@[simp] theorem State.havocR2_inputs : s.havocR2.inputs = s.inputs := rfl
@[simp] theorem State.havocR2_draws : s.havocR2.draws = s.draws + 5 := rfl
@[simp] theorem State.havocR2_tlbSize : s.havocR2.tlbSize = s.tlbSize := rfl
@[simp] theorem State.havocR2_mode : s.havocR2.mode = s.mode := rfl

/-! ### State.observeRandom -/

@[simp] theorem State.observeRandom_cfg : s.observeRandom.cfg = s.cfg := rfl
@[simp] theorem State.observeRandom_pc : s.observeRandom.pc = s.pc := rfl
@[simp] theorem State.observeRandom_cpsr : s.observeRandom.cpsr = s.cpsr := rfl
@[simp] theorem State.observeRandom_m : s.observeRandom.m = s.m := rfl
@[simp] theorem State.observeRandom_r2 : s.observeRandom.r2 = s.r2 := rfl
@[simp] theorem State.observeRandom_index : s.observeRandom.index = s.index := rfl
@[simp] theorem State.observeRandom_random : s.observeRandom.random = randomAfter s.tlbSize (Config.free s.draws) s.random := rfl
@[simp] theorem State.observeRandom_tlb : s.observeRandom.tlb = s.tlb := rfl
@[simp] theorem State.observeRandom_mem : s.observeRandom.mem = s.mem := rfl
@[simp] theorem State.observeRandom_trap : s.observeRandom.trap = s.trap := rfl
@[simp] theorem State.observeRandom_results : s.observeRandom.results = s.results := rfl
@[simp] theorem State.observeRandom_source : s.observeRandom.source = s.source := rfl
@[simp] theorem State.observeRandom_address : s.observeRandom.address = s.address := rfl
@[simp] theorem State.observeRandom_inputs : s.observeRandom.inputs = s.inputs := rfl
@[simp] theorem State.observeRandom_draws : s.observeRandom.draws = s.draws + 1 := rfl
@[simp] theorem State.observeRandom_tlbSize : s.observeRandom.tlbSize = s.tlbSize := rfl
@[simp] theorem State.observeRandom_mode : s.observeRandom.mode = s.mode := rfl

/-! ### State.loadEntry, the refill's last step -/

@[simp] theorem State.loadEntry_cfg (e : Pte) : (s.loadEntry e).cfg = s.cfg := rfl
@[simp] theorem State.loadEntry_pc (e : Pte) : (s.loadEntry e).pc = s.pc := rfl
@[simp] theorem State.loadEntry_cpsr (e : Pte) : (s.loadEntry e).cpsr = s.cpsr := rfl
@[simp] theorem State.loadEntry_m (e : Pte) : (s.loadEntry e).m = s.m := rfl
@[simp] theorem State.loadEntry_index (e : Pte) : (s.loadEntry e).index = s.index := rfl
@[simp] theorem State.loadEntry_random (e : Pte) : (s.loadEntry e).random = s.observeRandom.random := rfl
@[simp] theorem State.loadEntry_tlb (e : Pte) : (s.loadEntry e).tlb = s.tlb.set s.observeRandom.random.toNat e := rfl
@[simp] theorem State.loadEntry_mem (e : Pte) : (s.loadEntry e).mem = s.mem := rfl
@[simp] theorem State.loadEntry_trap (e : Pte) : (s.loadEntry e).trap = s.trap := rfl
@[simp] theorem State.loadEntry_results (e : Pte) : (s.loadEntry e).results = s.results := rfl
@[simp] theorem State.loadEntry_source (e : Pte) : (s.loadEntry e).source = s.source := rfl
@[simp] theorem State.loadEntry_address (e : Pte) : (s.loadEntry e).address = s.address := rfl
@[simp] theorem State.loadEntry_inputs (e : Pte) : (s.loadEntry e).inputs = s.inputs := rfl
@[simp] theorem State.loadEntry_draws (e : Pte) : (s.loadEntry e).draws = s.draws + 6 := rfl
@[simp] theorem State.loadEntry_asid (e : Pte) : (s.loadEntry e).r2.hi.asid = s.r2.hi.asid := rfl
@[simp] theorem State.loadEntry_tlbSize (e : Pte) : (s.loadEntry e).tlbSize = s.tlbSize := by simp [State.tlbSize]
@[simp] theorem State.loadEntry_mode (e : Pte) : (s.loadEntry e).mode = s.mode := rfl

/-! ### The hardware's updates of CP15.R2, of either volatility -/

@[simp] theorem State.afterTranslate_cfg : s.afterTranslate.cfg = s.cfg := by unfold State.afterTranslate; split <;> rfl
@[simp] theorem State.afterTranslate_pc : s.afterTranslate.pc = s.pc := by unfold State.afterTranslate; split <;> rfl
@[simp] theorem State.afterTranslate_cpsr : s.afterTranslate.cpsr = s.cpsr := by unfold State.afterTranslate; split <;> rfl
@[simp] theorem State.afterTranslate_m : s.afterTranslate.m = s.m := by unfold State.afterTranslate; split <;> rfl
@[simp] theorem State.afterTranslate_index : s.afterTranslate.index = s.index := by unfold State.afterTranslate; split <;> rfl
@[simp] theorem State.afterTranslate_random : s.afterTranslate.random = s.random := by unfold State.afterTranslate; split <;> rfl
@[simp] theorem State.afterTranslate_tlb : s.afterTranslate.tlb = s.tlb := by unfold State.afterTranslate; split <;> rfl
@[simp] theorem State.afterTranslate_mem : s.afterTranslate.mem = s.mem := by unfold State.afterTranslate; split <;> rfl
@[simp] theorem State.afterTranslate_trap : s.afterTranslate.trap = s.trap := by unfold State.afterTranslate; split <;> rfl
@[simp] theorem State.afterTranslate_results : s.afterTranslate.results = s.results := by unfold State.afterTranslate; split <;> rfl
@[simp] theorem State.afterTranslate_source : s.afterTranslate.source = s.source := by unfold State.afterTranslate; split <;> rfl
@[simp] theorem State.afterTranslate_address : s.afterTranslate.address = s.address := by unfold State.afterTranslate; split <;> rfl
@[simp] theorem State.afterTranslate_inputs : s.afterTranslate.inputs = s.inputs := by unfold State.afterTranslate; split <;> rfl
@[simp] theorem State.afterTranslate_asid : s.afterTranslate.r2.hi.asid = s.r2.hi.asid := by unfold State.afterTranslate; split <;> rfl
@[simp] theorem State.afterTranslate_tlbSize : s.afterTranslate.tlbSize = s.tlbSize := by simp [State.tlbSize]
@[simp] theorem State.afterTranslate_mode : s.afterTranslate.mode = s.mode := by simp [State.mode]
theorem State.afterTranslate_stable (h : s.cfg.volatility = .stable) : s.afterTranslate = s := by simp [State.afterTranslate, h]
theorem State.afterTranslate_havoc (h : s.cfg.volatility = .havocOnTranslate) : s.afterTranslate = s.havocR2 := by simp [State.afterTranslate, h]

@[simp] theorem State.afterEntryHiWrite_cfg : s.afterEntryHiWrite.cfg = s.cfg := by unfold State.afterEntryHiWrite; split <;> rfl
@[simp] theorem State.afterEntryHiWrite_pc : s.afterEntryHiWrite.pc = s.pc := by unfold State.afterEntryHiWrite; split <;> rfl
@[simp] theorem State.afterEntryHiWrite_cpsr : s.afterEntryHiWrite.cpsr = s.cpsr := by unfold State.afterEntryHiWrite; split <;> rfl
@[simp] theorem State.afterEntryHiWrite_m : s.afterEntryHiWrite.m = s.m := by unfold State.afterEntryHiWrite; split <;> rfl
@[simp] theorem State.afterEntryHiWrite_index : s.afterEntryHiWrite.index = s.index := by unfold State.afterEntryHiWrite; split <;> rfl
@[simp] theorem State.afterEntryHiWrite_random : s.afterEntryHiWrite.random = s.random := by unfold State.afterEntryHiWrite; split <;> rfl
@[simp] theorem State.afterEntryHiWrite_tlb : s.afterEntryHiWrite.tlb = s.tlb := by unfold State.afterEntryHiWrite; split <;> rfl
@[simp] theorem State.afterEntryHiWrite_mem : s.afterEntryHiWrite.mem = s.mem := by unfold State.afterEntryHiWrite; split <;> rfl
@[simp] theorem State.afterEntryHiWrite_trap : s.afterEntryHiWrite.trap = s.trap := by unfold State.afterEntryHiWrite; split <;> rfl
@[simp] theorem State.afterEntryHiWrite_results : s.afterEntryHiWrite.results = s.results := by unfold State.afterEntryHiWrite; split <;> rfl
@[simp] theorem State.afterEntryHiWrite_source : s.afterEntryHiWrite.source = s.source := by unfold State.afterEntryHiWrite; split <;> rfl
@[simp] theorem State.afterEntryHiWrite_address : s.afterEntryHiWrite.address = s.address := by unfold State.afterEntryHiWrite; split <;> rfl
@[simp] theorem State.afterEntryHiWrite_inputs : s.afterEntryHiWrite.inputs = s.inputs := by unfold State.afterEntryHiWrite; split <;> rfl
@[simp] theorem State.afterEntryHiWrite_asid : s.afterEntryHiWrite.r2.hi.asid = s.r2.hi.asid := by unfold State.afterEntryHiWrite; split <;> rfl
@[simp] theorem State.afterEntryHiWrite_tlbSize : s.afterEntryHiWrite.tlbSize = s.tlbSize := by simp [State.tlbSize]
@[simp] theorem State.afterEntryHiWrite_mode : s.afterEntryHiWrite.mode = s.mode := by simp [State.mode]
theorem State.afterEntryHiWrite_stable (h : s.cfg.volatility = .stable) : s.afterEntryHiWrite = s := by simp [State.afterEntryHiWrite, h]
theorem State.afterEntryHiWrite_havoc (h : s.cfg.volatility = .havocOnTranslate) : s.afterEntryHiWrite = s.havocLo := by simp [State.afterEntryHiWrite, h]

/-! ### What a reset leaves -/

@[simp] theorem State.resetWith_cfg (c : Config) (n : Nat) : (State.resetWith c n).cfg = c := rfl
@[simp] theorem State.resetWith_m (c : Config) (n : Nat) : (State.resetWith c n).m = false := rfl
@[simp] theorem State.resetWith_mem (c : Config) (n : Nat) : (State.resetWith c n).mem = [] := rfl
@[simp] theorem State.resetWith_random (c : Config) (n : Nat) :
    (State.resetWith c n).random = BitVec.ofNat 6 (c.tlbSize - 1) := rfl
@[simp] theorem State.resetWith_tlbSize (c : Config) (n : Nat) : (State.resetWith c n).tlbSize = c.tlbSize := by
  simp [State.resetWith, State.tlbSize]

/-- Memory is in its canonical form after reset. -/
theorem reset_mem_wf : State.reset.mem.wf = true := rfl

end Sys2Proof.Machine
end

