-- ==== Sys2Proof/Laws/Memory.lean ====
section
/-! SUPPORT. Memory and the bus: a read after a write, the canonical form kept by every memory operation, and what an access of the
bus can do. -/

namespace Sys2Proof.Machine

/-! ## One byte -/

theorem Memory.read_write_same (m : Memory) (a : Nat) (b : Byte) : (m.write a b).read a = some b := by
  induction m with
  | nil => simp [Memory.write, Memory.read]
  | cons c rest ih =>
    simp only [Memory.write]
    split
    · simp [Memory.read]
    · split
      · simp [Memory.read]
      · simp [Memory.read, *]

theorem Memory.read_write_other (m : Memory) (a x : Nat) (b : Byte) (h : x ≠ a) : (m.write a b).read x = m.read x := by
  induction m with
  | nil => simp [Memory.write, Memory.read, h]
  | cons c rest ih =>
    simp only [Memory.write]
    split
    · simp [Memory.read, h]
    · split
      · rename_i _ h2
        subst h2
        simp [Memory.read, h]
      · simp [Memory.read, ih]

/-- A byte written is an entry of memory, and every other entry was one before. -/
theorem Memory.mem_write {m : Memory} {a : Nat} {b : Byte} {e : Host.Cell} (h : e ∈ m.write a b) : e = (a, b) ∨ e ∈ m := by
  induction m with
  | nil => simpa [Memory.write] using h
  | cons c rest ih =>
    simp only [Memory.write] at h
    split at h
    · simpa using h
    · split at h
      · rcases List.mem_cons.1 h with h | h
        · exact .inl h
        · exact .inr (List.mem_cons_of_mem _ h)
      · rcases List.mem_cons.1 h with h | h
        · exact .inr (by simp [h])
        · rcases ih h with h | h
          · exact .inl h
          · exact .inr (List.mem_cons_of_mem _ h)

/-- A write keeps the canonical form. -/
theorem Memory.wf_write (m : Memory) (a : Nat) (b : Byte) (h : m.wf = true) : (m.write a b).wf = true := by
  induction m with
  | nil => rfl
  | cons c rest ih =>
    simp only [Memory.wf, Bool.and_eq_true, List.all_eq_true, decide_eq_true_eq] at h
    simp only [Memory.write]
    split
    · rename_i ha
      simp only [Memory.wf, Bool.and_eq_true, List.all_eq_true, decide_eq_true_eq]
      refine ⟨fun e he => ?_, h⟩
      rcases List.mem_cons.1 he with he | he
      · simp [he, ha]
      · exact Nat.lt_trans ha (h.1 e he)
    · split
      · rename_i _ ha
        simp only [Memory.wf, Bool.and_eq_true, List.all_eq_true, decide_eq_true_eq]
        exact ⟨fun e he => by simpa [ha] using h.1 e he, h.2⟩
      · rename_i h1 h2
        simp only [Memory.wf, Bool.and_eq_true, List.all_eq_true, decide_eq_true_eq]
        refine ⟨fun e he => ?_, ih h.2⟩
        rcases Memory.mem_write he with he | he
        · simp only [he]
          omega
        · exact h.1 e he

/-! ## Several bytes -/

theorem Memory.wf_writeBytes (m : Memory) (a : Nat) (bs : List Byte) (h : m.wf = true) : (m.writeBytes a bs).wf = true := by
  induction bs generalizing m a with
  | nil => exact h
  | cons b bs ih => exact ih _ _ (Memory.wf_write m a b h)

theorem Memory.mem_writeBytes {m : Memory} {a : Nat} {bs : List Byte} {e : Host.Cell} (h : e ∈ m.writeBytes a bs) :
    (a ≤ e.1 ∧ e.1 < a + bs.length) ∨ e ∈ m := by
  induction bs generalizing m a with
  | nil => exact .inr h
  | cons b bs ih =>
    rcases ih h with h | h
    · refine .inl ?_
      simp only [List.length_cons]
      omega
    · rcases Memory.mem_write h with h | h
      · refine .inl ?_
        simp [h]
      · exact .inr h

theorem Memory.read_writeBytes_outside (m : Memory) (a x : Nat) (bs : List Byte) (h : x < a ∨ a + bs.length ≤ x) :
    (m.writeBytes a bs).read x = m.read x := by
  induction bs generalizing m a with
  | nil => rfl
  | cons b bs ih =>
    simp only [List.length_cons] at h
    rw [Memory.writeBytes, ih _ _ (by omega), Memory.read_write_other _ _ _ _ (by omega)]

theorem Memory.readBytes_congr (m m' : Memory) (a n : Nat) (h : ∀ x, a ≤ x → x < a + n → m'.read x = m.read x) :
    m'.readBytes a n = m.readBytes a n := by
  induction n generalizing a with
  | zero => rfl
  | succ n ih =>
    rw [Memory.readBytes, Memory.readBytes, h a (by omega) (by omega), ih (a + 1) (fun x h1 h2 => h x (by omega) (by omega))]

theorem Memory.readBytes_isSome {m : Memory} {a n : Nat} (h : ∀ x, a ≤ x → x < a + n → m.read x ≠ none) :
    ∃ bs, m.readBytes a n = some bs := by
  induction n generalizing a with
  | zero => exact ⟨[], rfl⟩
  | succ n ih =>
    obtain ⟨bs, hbs⟩ := ih (a := a + 1) (fun x h1 h2 => h x (by omega) (by omega))
    obtain ⟨b, hb⟩ := Option.ne_none_iff_exists'.1 (h a (by omega) (by omega))
    exact ⟨b :: bs, by simp [Memory.readBytes, hb, hbs]⟩

theorem Memory.readBytes_writeBytes (m : Memory) (a : Nat) (bs : List Byte) :
    (m.writeBytes a bs).readBytes a bs.length = some bs := by
  induction bs generalizing m a with
  | nil => rfl
  | cons b bs ih =>
    have h1 : ((m.write a b).writeBytes (a + 1) bs).read a = some b := by
      rw [Memory.read_writeBytes_outside _ _ _ _ (by omega), Memory.read_write_same]
    simp only [List.length_cons, Memory.readBytes, Memory.writeBytes, h1, ih]

/-! ## The bus -/

theorem mem_placesOf {c : Config} {a n : Nat} {p : Place} : p ∈ placesOf c a n ↔ ∃ k, k < n ∧ placeOf c (a + k) = p := by
  induction n generalizing a with
  | zero => simp [placesOf]
  | succ n ih =>
    simp only [placesOf, List.mem_cons, ih]
    constructor
    · rintro (h | ⟨k, hk, h⟩)
      · exact ⟨0, by omega, by simpa using h.symm⟩
      · exact ⟨k + 1, by omega, by rw [← h]; congr 1; omega⟩
    · rintro ⟨k, hk, h⟩
      cases k with
      | zero => exact .inl (by simpa using h.symm)
      | succ k => exact .inr ⟨k, by omega, by rw [← h]; congr 1; omega⟩

theorem placeOf_eq_ram {c : Config} {a : Nat} : placeOf c a = .ram ↔ ramBase ≤ a ∧ a < c.ramTop := by
  by_cases h1 : a < ramBase
  · have hn : busPlace c.bus a ≠ .ram := by
      unfold busPlace
      split
      · simp
      · split
        · simp
        · split <;> simp
    simp [placeOf, h1, hn, show ¬ ramBase ≤ a by omega]
  · by_cases h2 : a < c.ramTop
    · simp [placeOf, h1, h2, Nat.not_lt.1 h1]
    · simp [placeOf, h1, h2]

/-- Installed RAM answers every access (rule R46). -/
theorem busCheck_ram {c : Config} {a n : Nat} (w : Bool) (h1 : ramBase ≤ a) (h2 : a + n ≤ c.ramTop) :
    busCheck c a n w = .ok () := by
  have h : ∀ p, p ∈ placesOf c a n → p = .ram := by
    intro p hp
    obtain ⟨k, hk, rfl⟩ := mem_placesOf.1 hp
    exact placeOf_eq_ram.2 ⟨by omega, by omega⟩
  have hn : ∀ p, p ≠ .ram → ¬ p ∈ placesOf c a n := fun p hp hm => hp (h p hm)
  simp [busCheck, hn]

/-- An access raises BUSERROR exactly when one of its bytes is not identified (rule R47). -/
theorem busCheck_busError {c : Config} {a n : Nat} {w : Bool} :
    busCheck c a n w = .busError ↔ ∃ k, k < n ∧ placeOf c (a + k) = .nothing := by
  rw [← mem_placesOf]
  simp only [busCheck, List.contains_eq_mem, decide_eq_true_eq]
  by_cases h : Place.nothing ∈ placesOf c a n
  · simp [h]
  · simp only [h, if_false, iff_false]
    repeat' split
    all_goals simp

/-- An access that is answered answers a read too. -/
theorem busCheck_ok_read {c : Config} {a n : Nat} {w : Bool} (h : busCheck c a n w = .ok ()) : busCheck c a n false = .ok () := by
  simp only [busCheck, List.contains_eq_mem, decide_eq_true_eq] at h ⊢
  split at h
  · exact absurd h (by simp)
  · rename_i h1
    split at h
    · exact absurd h (by simp)
    · rename_i h2
      split at h
      · exact absurd h (by simp)
      · rename_i h3
        simp [h1, h2, h3]

/-- A write that is answered goes to RAM alone. -/
theorem busCheck_ok_write {c : Config} {a n k : Nat} (h : busCheck c a n true = .ok ()) (hk : k < n) :
    placeOf c (a + k) = .ram := by
  have hm : placeOf c (a + k) ∈ placesOf c a n := mem_placesOf.2 ⟨k, hk, rfl⟩
  simp only [busCheck, List.contains_eq_mem, decide_eq_true_eq] at h
  split at h
  · exact absurd h (by simp)
  · rename_i h1
    split at h
    · exact absurd h (by simp)
    · rename_i h2
      split at h
      · exact absurd h (by simp)
      · rename_i h3
        split at h
        · exact absurd h (by simp)
        · rename_i h4
          simp only [Bool.true_and, decide_eq_true_eq] at h4
          cases hp : placeOf c (a + k) with
          | ram => rfl
          | rom => rw [hp] at hm; exact absurd hm h4
          | device => rw [hp] at hm; exact absurd hm h3
          | nothing => rw [hp] at hm; exact absurd hm h1
          | unmodelled => rw [hp] at hm; exact absurd hm h2

/-- What PhysWrite can do when it is answered: the bytes of the access change and nothing else. -/
theorem physWrite_ok {s t : State} {a : Nat} {n : Width} {v : Word} (h : physWrite s a n v = .ok t) :
    busCheck s.cfg a n.bytes true = .ok () ∧
      t = { s with mem := s.mem.writeBytes a (s.cfg.byteOrder.split n.bytes v) } := by
  unfold physWrite at h
  split at h
  · exact absurd h (by simp)
  · exact absurd h (by simp)
  · rename_i u hb
    exact ⟨hb, by simpa using h.symm⟩

/-- What PhysRead can do when it is answered: it gives the bytes in memory. -/
theorem physRead_ok {s : State} {a : Nat} {n : Width} {w : Word} (h : physRead s a n = .ok w) :
    busCheck s.cfg a n.bytes false = .ok () ∧
      ∃ bs, s.mem.readBytes a n.bytes = some bs ∧ w = s.cfg.byteOrder.assemble bs := by
  unfold physRead at h
  split at h
  · exact absurd h (by simp)
  · exact absurd h (by simp)
  · rename_i u hb
    split at h
    · rename_i bs hr
      exact ⟨hb, bs, hr, by simpa using h.symm⟩
    · exact absurd h (by simp)

theorem physRead_eq_ok {s : State} {a : Nat} {n : Width} {bs : List Byte} (h1 : busCheck s.cfg a n.bytes false = .ok ())
    (h2 : s.mem.readBytes a n.bytes = some bs) : physRead s a n = .ok (s.cfg.byteOrder.assemble bs) := by
  simp [physRead, h1, h2]

/-- PhysRead depends on the configuration and on memory alone. -/
theorem physRead_congr {s t : State} (hc : t.cfg = s.cfg) (hm : t.mem = s.mem) (a : Nat) (n : Width) :
    physRead t a n = physRead s a n := by
  simp [physRead, hc, hm]

/-- A write that is answered keeps memory in its canonical form and inside RAM or below. -/
theorem physWrite_memOk {s t : State} {a : Nat} {n : Width} {v : Word} (hs : s.MemOk) (h : physWrite s a n v = .ok t) :
    t.MemOk := by
  obtain ⟨hb, rfl⟩ := physWrite_ok h
  refine ⟨Memory.wf_writeBytes _ _ _ hs.1, ?_⟩
  simp only [List.all_eq_true, decide_eq_true_eq]
  intro e he
  rcases Memory.mem_writeBytes he with ⟨h1, h2⟩ | he
  · simp only [ByteOrder.length_split] at h2
    have hp := busCheck_ok_write hb (k := e.1 - a) (by omega)
    have := (placeOf_eq_ram.1 hp).2
    rwa [Nat.add_sub_cancel' h1] at this
  · have := List.all_eq_true.1 hs.2 e he
    simpa using this

end Sys2Proof.Machine
end

