-- ==== Sys2Proof/Laws/Tlb.lean ====
section
/-! SUPPORT. Draws from a set, the set of matching slots, the slots after a write or a clear, and the range of Random. -/

namespace Sys2Proof.Machine

/-! ## Draws -/

/-- A draw from a set is a member of it, whatever the free value is. -/
theorem pick_mem {α : Type} (n : Nat) (x : α) (xs : List α) : pick n x xs ∈ x :: xs := by
  cases xs with
  | nil => exact List.mem_singleton.2 rfl
  | cons y ys =>
    have h : Config.free n % (ys.length + 2) < (x :: y :: ys).length := Nat.mod_lt _ (by omega)
    rw [pick, List.getD_eq_getElem?_getD, List.getElem?_eq_getElem h, Option.getD_some]
    exact List.getElem_mem h

/-- A draw from the image of a set is the image of a draw. -/
theorem pick_map {α β : Type} (f : α → β) (n : Nat) (x : α) (xs : List α) :
    pick n (f x) (xs.map f) = f (pick n x xs) := by
  cases xs with
  | nil => rfl
  | cons y ys =>
    have h : Config.free n % (ys.length + 2) < (x :: y :: ys).length := Nat.mod_lt _ (by omega)
    have h' : Config.free n % (ys.length + 2) < (f x :: f y :: ys.map f).length := by simpa using h
    rw [List.map_cons, pick, pick, List.length_map, List.getD_eq_getElem?_getD, List.getD_eq_getElem?_getD,
      List.getElem?_eq_getElem h, List.getElem?_eq_getElem h', Option.getD_some, Option.getD_some]
    exact (List.getElem_map (l := x :: y :: ys) f (h := by simpa using h))

/-! ## The matching slots -/

theorem tlbMatch_iff {e : Pte} {v : BitVec 20} {a : BitVec 7} :
    tlbMatch e v a = true ↔ e.hi.vpn20 = v ∧ (e.lo.g = true ∨ e.hi.asid = a) := by simp [tlbMatch]

theorem tlbMatch_eq_false {e : Pte} {v : BitVec 20} {a : BitVec 7} (h : ¬ Matches e v a) : tlbMatch e v a = false := by
  cases hm : tlbMatch e v a with
  | false => rfl
  | true => exact absurd (tlbMatch_iff.1 hm) h

/-- The set of matching slots: the slots that stand in the TLB and match. -/
theorem mem_matching {s : State} {v : BitVec 20} {a : BitVec 7} {x : Pte × Nat} :
    x ∈ s.matching v a ↔ s.tlb[x.2]? = some x.1 ∧ tlbMatch x.1 v a = true := by
  rw [State.matching, List.mem_filter, List.mem_zipIdx_iff_getElem?]

theorem matching_eq_nil {s : State} {v : BitVec 20} {a : BitVec 7} :
    s.matching v a = [] ↔ ∀ (i : Nat) (e : Pte), s.tlb[i]? = some e → tlbMatch e v a = false := by
  rw [List.eq_nil_iff_forall_not_mem]
  constructor
  · intro h i e he
    cases hm : tlbMatch e v a with
    | false => rfl
    | true => exact absurd (mem_matching.2 ⟨he, hm⟩) (h (e, i))
  · intro h x hx
    obtain ⟨h1, h2⟩ := mem_matching.1 hx
    rw [h _ _ h1] at h2
    exact absurd h2 (by simp)

/-- The entries of the matching slots are the matching entries. -/
theorem matching_map_fst (s : State) (v : BitVec 20) (a : BitVec 7) :
    (s.matching v a).map Prod.fst = s.tlb.filter (fun e => tlbMatch e v a) := by
  have h := List.filter_map (f := Prod.fst) (p := fun e => tlbMatch e v a) (l := s.tlb.zipIdx)
  rw [List.zipIdx_map_fst] at h
  exact h.symm

/-! ## Slots after a write and a clear -/

theorem setSlot_same {s : State} {i : Nat} (e : Pte) (h : i < s.tlbSize) : (s.setSlot i e).tlb[i]? = some e := by
  simp [State.tlbSize] at h
  simp [h]

theorem setSlot_other {s : State} {i j : Nat} (e : Pte) (h : j ≠ i) : (s.setSlot i e).tlb[j]? = s.tlb[j]? := by
  simp [List.getElem?_set_ne (Ne.symm h)]

@[simp] theorem length_clearUnsafe (l : List Pte) : (clearUnsafe l).length = l.length := by
  cases l <;> simp [clearUnsafe]

@[simp] theorem clearUnsafe_zero (l : List Pte) : (clearUnsafe l)[0]? = l[0]? := by
  cases l <;> simp [clearUnsafe]

theorem clearUnsafe_unsafe {l : List Pte} {i : Nat} (h1 : 1 ≤ i) (h2 : i < l.length) : (clearUnsafe l)[i]? = some zeroPte := by
  cases l with
  | nil => simp at h2
  | cons e rest =>
    obtain ⟨j, rfl⟩ : ∃ j, i = j + 1 := ⟨i - 1, by omega⟩
    have : j < rest.length := by simpa using h2
    simp [clearUnsafe, this]

/-! ## Random (rule R19) -/

theorem randomTick_range {n : Nat} (hn : 4 ≤ n ∧ n ≤ 64) {r : BitVec 6} (h : 1 ≤ r.toNat ∧ r.toNat + 1 ≤ n) :
    1 ≤ (randomTick n r).toNat ∧ (randomTick n r).toNat + 1 ≤ n := by
  unfold randomTick
  split
  · rw [BitVec.toNat_ofNat]
    omega
  · rename_i h1
    have h2 : r.toNat ≠ 1 := fun hh => h1 (BitVec.eq_of_toNat_eq (by simpa using hh))
    have h3 : (r - 1#6).toNat = r.toNat - 1 :=
      BitVec.toNat_sub_of_le (by rw [BitVec.le_def]; exact h.1)
    change 1 ≤ (r - 1#6).toNat ∧ (r - 1#6).toNat + 1 ≤ n
    omega

/-- One cycle as numbers. -/
theorem randomTick_toNat {n : Nat} (hn : 4 ≤ n ∧ n ≤ 64) {r : BitVec 6} (h : 1 ≤ r.toNat) :
    (randomTick n r).toNat = if r.toNat = 1 then n - 1 else r.toNat - 1 := by
  by_cases hr : r = 1
  · subst hr
    have h1 : (1 : BitVec 6).toNat = 1 := rfl
    rw [randomTick, if_pos rfl, h1, if_pos rfl, BitVec.toNat_ofNat]
    omega
  · have h2 : r.toNat ≠ 1 := fun hh => hr (BitVec.eq_of_toNat_eq (by simpa using hh))
    rw [randomTick, if_neg hr, if_neg h2]
    exact BitVec.toNat_sub_of_le (by rw [BitVec.le_def]; exact h)

/-- Cycles add up. -/
theorem randomAfter_add (n a b : Nat) (r : BitVec 6) : randomAfter n (a + b) r = randomAfter n b (randomAfter n a r) := by
  induction a generalizing r with
  | zero => simp [randomAfter]
  | succ a ih =>
    rw [show a + 1 + b = (a + b) + 1 by omega]
    exact ih _

/-- Until it wraps, Random goes down by the number of cycles. -/
theorem randomAfter_toNat {n : Nat} (hn : 4 ≤ n ∧ n ≤ 64) (k : Nat) (r : BitVec 6) (hk : k < r.toNat) :
    (randomAfter n k r).toNat = r.toNat - k := by
  induction k generalizing r with
  | zero => rfl
  | succ k ih =>
    have h := randomTick_toNat hn (r := r) (by omega)
    rw [if_neg (by omega)] at h
    have := ih (randomTick n r) (by omega)
    simp only [randomAfter]
    omega

theorem randomAfter_range {n : Nat} (hn : 4 ≤ n ∧ n ≤ 64) (k : Nat) {r : BitVec 6} (h : 1 ≤ r.toNat ∧ r.toNat + 1 ≤ n) :
    1 ≤ (randomAfter n k r).toNat ∧ (randomAfter n k r).toNat + 1 ≤ n := by
  induction k generalizing r with
  | zero => exact h
  | succ k ih => exact ih (randomTick_range hn h)

/-- An observation of Random keeps its range. -/
theorem observeRandom_randomOk {s : State} (hn : s.TlbSizeOk) (h : s.RandomOk) : s.observeRandom.RandomOk :=
  randomAfter_range hn _ h

end Sys2Proof.Machine
end

