-- ==== Sys2Proof/Laws/Access.lean ====
section
/-! SUPPORT. What Translate, MemRead and MemWrite can do, said once for each. -/

namespace Sys2Proof.Machine

theorem OnlyR2.refl (s : State) : OnlyR2 s s := ⟨rfl, rfl⟩

theorem OnlyR2.cfg {s t : State} (h : OnlyR2 s t) : t.cfg = s.cfg := by rw [h.1]
theorem OnlyR2.pc {s t : State} (h : OnlyR2 s t) : t.pc = s.pc := by rw [h.1]
theorem OnlyR2.cpsr {s t : State} (h : OnlyR2 s t) : t.cpsr = s.cpsr := by rw [h.1]
theorem OnlyR2.m {s t : State} (h : OnlyR2 s t) : t.m = s.m := by rw [h.1]
theorem OnlyR2.index {s t : State} (h : OnlyR2 s t) : t.index = s.index := by rw [h.1]
theorem OnlyR2.random {s t : State} (h : OnlyR2 s t) : t.random = s.random := by rw [h.1]
theorem OnlyR2.tlb {s t : State} (h : OnlyR2 s t) : t.tlb = s.tlb := by rw [h.1]
theorem OnlyR2.mem {s t : State} (h : OnlyR2 s t) : t.mem = s.mem := by rw [h.1]
theorem OnlyR2.trap {s t : State} (h : OnlyR2 s t) : t.trap = s.trap := by rw [h.1]
theorem OnlyR2.results {s t : State} (h : OnlyR2 s t) : t.results = s.results := by rw [h.1]
theorem OnlyR2.source {s t : State} (h : OnlyR2 s t) : t.source = s.source := by rw [h.1]
theorem OnlyR2.address {s t : State} (h : OnlyR2 s t) : t.address = s.address := by rw [h.1]
theorem OnlyR2.inputs {s t : State} (h : OnlyR2 s t) : t.inputs = s.inputs := by rw [h.1]
theorem OnlyR2.tlbSize {s t : State} (h : OnlyR2 s t) : t.tlbSize = s.tlbSize := by rw [State.tlbSize, h.tlb]; rfl
theorem OnlyR2.mode {s t : State} (h : OnlyR2 s t) : t.mode = s.mode := by rw [State.mode, h.cfg, h.cpsr]; rfl

theorem onlyR2_draws (s : State) (n : Nat) : OnlyR2 s { s with draws := n } := ⟨rfl, rfl⟩

theorem OnlyR2.afterTranslate {s t : State} (h : OnlyR2 s t) : OnlyR2 s t.afterTranslate := by
  obtain ⟨h1, h2⟩ := h
  refine ⟨?_, by simp [h2]⟩
  unfold State.afterTranslate
  split
  · rw [h1]
    rfl
  · exact h1

/-! ## The four parts of Translate -/

/-- The address in the request is forbidden to User mode in both addressing modes (rule R53). -/
theorem translate_user_reserved {s : State} {va : Word} (k : Kind) (hm : s.mode = .user) (h : va.toNat < 0x8000) :
    translateVa s va k = .raised ⟨.addressError, va, k, none⟩ s := by
  simp [translateVa, raise, hm, (reserved_iff va).2 h]

/-- A request that is not translated (rule R52). -/
theorem translate_direct {s : State} {va : Word} (k : Kind) (hm : s.mode = .privileged ∨ 0x8000 ≤ va.toNat)
    (h : s.m = false ∨ va.toNat < 0x8000) : translateVa s va k = .ok va s := by
  have h1 : ¬ (s.mode = .user ∧ reserved va = true) := by
    rw [reserved_iff]
    rintro ⟨h2, h3⟩
    rcases hm with hm | hm
    · rw [hm] at h2
      exact absurd h2 (by simp)
    · omega
  have h2 : s.m = false ∨ reserved va = true := by rwa [reserved_iff]
  rw [translateVa, if_neg h1, if_pos h2]

/-- A request that is translated (rule R51) goes through steps 3 to 10 and the update of rule R16. -/
theorem translate_virtual {s : State} {va : Word} (k : Kind) (hm : s.m = true) (h : 0x8000 ≤ va.toNat) :
    translateVa s va k = (translateVirtual s va k).mapState State.afterTranslate := by
  have hr := (reserved_eq_false_iff va).2 h
  simp [translateVa, hm, hr]

/-- The three ways Translate goes. -/
theorem translate_cases (s : State) (va : Word) (k : Kind) :
    (s.mode = .user ∧ va.toNat < 0x8000 ∧ translateVa s va k = .raised ⟨.addressError, va, k, none⟩ s) ∨
    ((s.mode = .privileged ∨ 0x8000 ≤ va.toNat) ∧ (s.m = false ∨ va.toNat < 0x8000) ∧ translateVa s va k = .ok va s) ∨
    (s.m = true ∧ 0x8000 ≤ va.toNat ∧ translateVa s va k = (translateVirtual s va k).mapState State.afterTranslate) := by
  by_cases hv : va.toNat < 0x8000
  · cases hm : s.mode with
    | user => exact .inl ⟨rfl, hv, translate_user_reserved k hm hv⟩
    | privileged => exact .inr (.inl ⟨.inl rfl, .inr hv, translate_direct k (.inl hm) (.inr hv)⟩)
  · have hv' : 0x8000 ≤ va.toNat := by omega
    cases hm : s.m with
    | false => exact .inr (.inl ⟨.inr hv', .inl rfl, translate_direct k (.inr hv') (.inl hm)⟩)
    | true => exact .inr (.inr ⟨rfl, hv', translate_virtual k hm hv'⟩)

/-- What steps 3 to 10 do: the mode check fails, no slot matches, or the checks of a slot that matches decide. -/
theorem translateVirtual_cases (s : State) (va : Word) (k : Kind) :
    (s.mode = .user ∧ kernelSegment va = true ∧ translateVirtual s va k = .raised ⟨.addressError, va, k, none⟩ s) ∨
    (¬ (s.mode = .user ∧ kernelSegment va = true) ∧ s.matching (vpn20Of va) s.r2.hi.asid = [] ∧
      translateVirtual s va k = .raised ⟨.tlbMiss, va, k, none⟩ s) ∨
    (¬ (s.mode = .user ∧ kernelSegment va = true) ∧ ∃ (i : Nat) (e : Pte), s.tlb[i]? = some e ∧ tlbMatch e (vpn20Of va) s.r2.hi.asid = true ∧
      translateVirtual s va k = translateBy { s with draws := s.draws + 1 } va k e) := by
  by_cases h : s.mode = .user ∧ kernelSegment va = true
  · exact .inl ⟨h.1, h.2, by rw [translateVirtual, if_pos h, raise]⟩
  · cases hM : s.matching (vpn20Of va) s.r2.hi.asid with
    | nil => exact .inr (.inl ⟨h, rfl, by rw [translateVirtual, if_neg h, hM]; rfl⟩)
    | cons x xs =>
      have hp : pick s.draws x xs ∈ s.matching (vpn20Of va) s.r2.hi.asid := by rw [hM]; exact pick_mem _ _ _
      obtain ⟨h1, h2⟩ := mem_matching.1 hp
      exact .inr (.inr ⟨h, _, _, h1, h2, by rw [translateVirtual, if_neg h, hM]⟩)

/-- What the checks of a matching entry do. -/
theorem translateBy_cases (s : State) (va : Word) (k : Kind) (e : Pte) :
    (e.lo.v = false ∧ translateBy s va k e = .raised ⟨.tlbInvalid, va, k, none⟩ s) ∨
    (e.lo.v = true ∧ k = .write ∧ e.lo.d = false ∧ translateBy s va k e = .raised ⟨.tlbModification, va, k, none⟩ s) ∨
    (e.lo.v = true ∧ (k = .write → e.lo.d = true) ∧ s.mode = .user ∧ (physicalOf e.lo.pfn (offsetOf va)).toNat < 0x8000 ∧
      translateBy s va k e = .refused .userTranslationIntoReserved) ∨
    (e.lo.v = true ∧ (k = .write → e.lo.d = true) ∧
      (s.mode = .privileged ∨ 0x8000 ≤ (physicalOf e.lo.pfn (offsetOf va)).toNat) ∧
      translateBy s va k e = .ok (physicalOf e.lo.pfn (offsetOf va)) s) := by
  cases hv : e.lo.v with
  | false => exact .inl ⟨rfl, by simp [translateBy, flagCheck, hv, raise]⟩
  | true =>
    by_cases hd : k = .write ∧ e.lo.d = false
    · exact .inr (.inl ⟨rfl, hd.1, hd.2, by simp [translateBy, flagCheck, hv, hd, raise]⟩)
    · have hc : flagCheck e.lo k = none := by
        rw [flagCheck, if_neg (by simp [hv]), if_neg hd]
      have hd' : k = .write → e.lo.d = true := fun hk => by
        cases hdd : e.lo.d with
        | true => rfl
        | false => exact absurd ⟨hk, hdd⟩ hd
      refine .inr (.inr ?_)
      by_cases hr : s.mode = .user ∧ reserved (physicalOf e.lo.pfn (offsetOf va)) = true
      · exact .inl ⟨rfl, hd', hr.1, (reserved_iff _).1 hr.2, by simp only [translateBy, hc]; rw [if_pos hr]⟩
      · refine .inr ⟨rfl, hd', ?_, by simp only [translateBy, hc]; rw [if_neg hr]⟩
        cases hm : s.mode with
        | privileged => exact .inl rfl
        | user =>
          refine .inr ((reserved_eq_false_iff _).1 ?_)
          cases hrr : reserved (physicalOf e.lo.pfn (offsetOf va)) with
          | false => rfl
          | true => exact absurd ⟨hm, hrr⟩ hr

/-! ## What Translate leaves, and where a User-mode access lands -/

theorem Res.state?_mapState {α : Type} (f : State → State) (r : Res α) : (r.mapState f).state? = r.state?.map f := by
  cases r <;> rfl

theorem translateVirtual_onlyR2 {s t : State} {va : Word} {k : Kind} (h : (translateVirtual s va k).state? = some t) :
    OnlyR2 s t := by
  rcases translateVirtual_cases s va k with ⟨_, _, h1⟩ | ⟨_, _, h1⟩ | ⟨_, i, e, _, _, h1⟩
  · rw [h1] at h
    cases h
    exact .refl s
  · rw [h1] at h
    cases h
    exact .refl s
  · rw [h1] at h
    rcases translateBy_cases { s with draws := s.draws + 1 } va k e with ⟨_, h2⟩ | ⟨_, _, _, h2⟩ | ⟨_, _, _, _, h2⟩ | ⟨_, _, _, h2⟩
    · rw [h2] at h; cases h; exact onlyR2_draws _ _
    · rw [h2] at h; cases h; exact onlyR2_draws _ _
    · rw [h2] at h; cases h
    · rw [h2] at h; cases h; exact onlyR2_draws _ _

/-- Translate changes nothing but CP15.R2, and not the current ASID. -/
theorem translate_onlyR2 {s t : State} {va : Word} {k : Kind} (h : (translateVa s va k).state? = some t) : OnlyR2 s t := by
  rcases translate_cases s va k with ⟨_, _, h1⟩ | ⟨_, _, h1⟩ | ⟨_, _, h1⟩
  · rw [h1] at h
    cases h
    exact .refl s
  · rw [h1] at h
    cases h
    exact .refl s
  · rw [h1, Res.state?_mapState] at h
    obtain ⟨u, hu, rfl⟩ := Option.map_eq_some_iff.1 h
    exact (translateVirtual_onlyR2 hu).afterTranslate

/-- A User-mode request never reaches the reserved address space (rules R53, R61). -/
theorem translate_user_ok {s t : State} {va pa : Word} {k : Kind} (hm : s.mode = .user) (h : translateVa s va k = .ok pa t) :
    0x8000 ≤ pa.toNat := by
  have hn : ¬ s.mode = .privileged := by rw [hm]; simp
  rcases translate_cases s va k with ⟨_, _, h1⟩ | ⟨h2, _, h1⟩ | ⟨_, _, h1⟩
  · rw [h1] at h
    cases h
  · rw [h1] at h
    cases h
    exact h2.resolve_left hn
  · rw [h1] at h
    rcases translateVirtual_cases s va k with ⟨_, _, h3⟩ | ⟨_, _, h3⟩ | ⟨_, i, e, _, _, h3⟩
    · rw [h3] at h; cases h
    · rw [h3] at h; cases h
    · rw [h3] at h
      rcases translateBy_cases { s with draws := s.draws + 1 } va k e with ⟨_, h4⟩ | ⟨_, _, _, h4⟩ | ⟨_, _, _, _, h4⟩ | ⟨_, _, h5, h4⟩
      · rw [h4] at h; cases h
      · rw [h4] at h; cases h
      · rw [h4] at h; cases h
      · rw [h4] at h
        cases h
        exact h5.resolve_left hn

/-! ## MemRead and MemWrite -/

/-- A read that completes: Translate, then the bytes in memory. -/
theorem memRead_ok {s t : State} {va w : Word} {n : Width} {k : Kind} (h : memRead s va n k = .ok w t) :
    aligned va n = true ∧ ∃ pa, translateVa s va k = .ok pa t ∧ physRead t pa.toNat n = .ok w := by
  unfold memRead at h
  split at h
  · cases h
  · rename_i ha
    refine ⟨by simpa using ha, ?_⟩
    split at h
    · cases h
    · cases h
    · rename_i pa s1 ht
      split at h
      · rename_i w' hr
        cases h
        exact ⟨pa, ht, hr⟩
      · cases h
      · cases h

/-- A read that raises: Translate raised it, or nothing answered at the physical address. -/
theorem memRead_raised {s s1 : State} {va : Word} {n : Width} {k : Kind} {t : Trap} (h : memRead s va n k = .raised t s1) :
    aligned va n = true ∧ (translateVa s va k = .raised t s1 ∨
      ∃ pa, translateVa s va k = .ok pa s1 ∧ physRead s1 pa.toNat n = .busError ∧ t = ⟨.busError, va, k, some pa⟩) := by
  unfold memRead at h
  split at h
  · cases h
  · rename_i ha
    refine ⟨by simpa using ha, ?_⟩
    split at h
    · rename_i ht
      cases h
      exact .inl ht
    · cases h
    · rename_i pa s1 ht
      split at h
      · cases h
      · rename_i hr
        cases h
        exact .inr ⟨pa, ht, hr, rfl⟩
      · cases h

/-- A write that completes: Translate, then PhysWrite. -/
theorem memWrite_ok {s t : State} {va v : Word} {n : Width} {u : Unit} (h : memWrite s va n v = .ok u t) :
    aligned va n = true ∧ ∃ pa s1, translateVa s va .write = .ok pa s1 ∧ physWrite s1 pa.toNat n v = .ok t := by
  unfold memWrite at h
  split at h
  · cases h
  · rename_i ha
    refine ⟨by simpa using ha, ?_⟩
    split at h
    · cases h
    · cases h
    · rename_i pa s1 ht
      split at h
      · rename_i s2 hr
        cases h
        exact ⟨pa, s1, ht, hr⟩
      · cases h
      · cases h

/-- A write that raises. -/
theorem memWrite_raised {s s1 : State} {va v : Word} {n : Width} {t : Trap} (h : memWrite s va n v = .raised t s1) :
    aligned va n = true ∧ (translateVa s va .write = .raised t s1 ∨
      ∃ pa, translateVa s va .write = .ok pa s1 ∧ physWrite s1 pa.toNat n v = .busError ∧ t = ⟨.busError, va, .write, some pa⟩) := by
  unfold memWrite at h
  split at h
  · cases h
  · rename_i ha
    refine ⟨by simpa using ha, ?_⟩
    split at h
    · rename_i ht
      cases h
      exact .inl ht
    · cases h
    · rename_i pa s1 ht
      split at h
      · cases h
      · rename_i hr
        cases h
        exact .inr ⟨pa, ht, hr, rfl⟩
      · cases h

/-- The states reads and raised accesses leave (rule R143). -/
theorem memRead_onlyR2 {s t : State} {va : Word} {n : Width} {k : Kind} (h : (memRead s va n k).state? = some t) : OnlyR2 s t := by
  cases hr : memRead s va n k with
  | refused r => rw [hr] at h; cases h
  | ok w s1 =>
    rw [hr] at h
    cases h
    obtain ⟨_, pa, ht, _⟩ := memRead_ok hr
    exact translate_onlyR2 (by rw [ht]; rfl)
  | raised x s1 =>
    rw [hr] at h
    cases h
    obtain ⟨_, ht | ⟨pa, ht, _⟩⟩ := memRead_raised hr <;> exact translate_onlyR2 (by rw [ht]; rfl)

theorem memWrite_raised_onlyR2 {s t : State} {va v : Word} {n : Width} {x : Trap} (h : memWrite s va n v = .raised x t) :
    OnlyR2 s t := by
  obtain ⟨_, ht | ⟨pa, ht, _⟩⟩ := memWrite_raised h <;> exact translate_onlyR2 (by rw [ht]; rfl)

end Sys2Proof.Machine
end

