-- ==== Sys2Proof/Laws/Config.lean ====
section
/-! SUPPORT. What well-formed parameters give, one lemma for each check, and the encoder and decoder under a well-formed DECODE. -/

namespace Sys2Proof

/-! ## The checks -/

theorem Config.wf_tlbSize {c : Config} (h : c.wf = true) : 4 ≤ c.tlbSize ∧ c.tlbSize ≤ 64 := by
  simp only [Config.wf, Config.tlbSizeOk, Bool.and_eq_true, decide_eq_true_eq] at h
  exact h.1.1.1.1.1

theorem Config.wf_ramTop {c : Config} (h : c.wf = true) : reservedTop < c.ramTop ∧ c.ramTop % 4096 = 0 ∧ c.ramTop ≤ 2 ^ 32 := by
  simp only [Config.wf, Config.ramTopOk, Bool.and_eq_true, decide_eq_true_eq] at h
  exact ⟨h.1.1.1.1.2.1.1, h.1.1.1.1.2.1.2, h.1.1.1.1.2.2⟩

/-- Every register's fields fit their word (rules R84 to R88). -/
theorem Config.wf_layouts {c : Config} (h : c.wf = true) :
    rangesFit [(c.hi.vpn20, 20), (c.hi.asid, 7)] = true ∧
    rangesFit [(c.lo.pfn, 20), (c.lo.d, 1), (c.lo.v, 1), (c.lo.g, 1)] = true ∧
    rangesFit [(c.index.tlbIndex, 6), (c.index.p, 1)] = true ∧ c.random + 6 ≤ 32 ∧ c.m + 1 ≤ 32 := by
  have hl : c.layoutsOk = true := by
    simp only [Config.wf, Bool.and_eq_true] at h
    exact h.1.1.1.2
  simp only [Config.layoutsOk, Bool.and_eq_true] at hl
  obtain ⟨⟨⟨⟨h1, h2⟩, h3⟩, h4⟩, h5⟩ := hl
  exact ⟨h1, h2, h3, by simpa [rangesFit] using h4, by simpa [rangesFit] using h5⟩

theorem Config.wf_decode {c : Config} (h : c.wf = true) :
    (c.decode.map (·.word)).Nodup ∧ ∀ r, r ∈ c.decode → r.word.toNat < 2 ^ (8 * c.insnWidth.bytes) := by
  have hd : c.decodeOk = true := by
    simp only [Config.wf, Bool.and_eq_true] at h
    exact h.2
  simpa only [Config.decodeOk, Bool.and_eq_true, List.all_eq_true, decide_eq_true_eq] using hd

/-! ## DECODE -/

/-- In a table whose words differ, a row is found under its word. -/
theorem find_row {l : List DecodeRow} {r : DecodeRow} (hnd : (l.map (·.word)).Nodup) (hr : r ∈ l) :
    l.find? (fun x => decide (x.word = r.word)) = some r := by
  induction l with
  | nil => cases hr
  | cons a l ih =>
    simp only [List.map_cons, List.nodup_cons] at hnd
    rcases List.mem_cons.1 hr with h | h
    · subst h
      simp
    · have ha : ¬ a.word = r.word := fun ha => hnd.1 (List.mem_map.2 ⟨r, h, ha.symm⟩)
      simp [ha, ih hnd.2 h]

/-- A row's word decodes to the row's operation, with the operands CORE supplies. -/
theorem decode_row {c : Config} (hc : c.wf = true) {r : DecodeRow} (hr : r ∈ c.decode) (src addr : Word) :
    decode c.decode r.word src addr = .term (r.op.withOperands src addr) := by
  simp only [decode, find_row (Config.wf_decode hc).1 hr]

/-- The encoder answers with a row of the table that holds the instruction's operation. -/
theorem encode_row {table : List DecodeRow} {i : Instr} (hi : i.wellFormed table = true) :
    ∃ r, r ∈ table ∧ r.op = i.op ∧ encode table i = some (r.word, i.source) := by
  obtain ⟨r, hr⟩ : ∃ r, table.find? (fun r => decide (r.op = i.op)) = some r := by
    rw [← Option.isSome_iff_exists, List.find?_isSome]
    simpa [Instr.wellFormed] using hi
  exact ⟨r, List.mem_of_find?_eq_some hr, by simpa using List.find?_some hr, by simp only [encode, hr]⟩

/-- A word that fits the width comes back from its bytes, in either byte order. -/
theorem ByteOrder.assemble_split_width {o : ByteOrder} {n : Width} {w : Word} (h : w.toNat < 2 ^ (8 * n.bytes)) :
    o.assemble (o.split n.bytes w) = w := by
  rw [ByteOrder.assemble_split, show 256 ^ n.bytes = 2 ^ (8 * n.bytes) by cases n <;> rfl, Nat.mod_eq_of_lt h]
  simp

end Sys2Proof
end

