-- ==== Sys2Proof/Laws/PerInstr.lean ====
section
/-! SUPPORT. A family of lemmas with one member for each instruction: an instruction comes back from its operation and its source
word. -/

/-- The operation DECODE names, with the source word CORE supplies, is the instruction, whatever address CORE supplies (rules R81,
R107). -/
def Sys2Proof.Laws.OpRoundTrip.Statement (i : Sys2Proof.Instr) : Prop :=
  ∀ addr, i.op.withOperands i.source addr = .instr i

theorem Sys2Proof.Laws.OpRoundTrip.tlbwi : Sys2Proof.Laws.OpRoundTrip.Statement .tlbwi := fun _ => rfl

theorem Sys2Proof.Laws.OpRoundTrip.tlbwr : Sys2Proof.Laws.OpRoundTrip.Statement .tlbwr := fun _ => rfl

theorem Sys2Proof.Laws.OpRoundTrip.tlbr : Sys2Proof.Laws.OpRoundTrip.Statement .tlbr := fun _ => rfl

theorem Sys2Proof.Laws.OpRoundTrip.tlbp : Sys2Proof.Laws.OpRoundTrip.Statement .tlbp := fun _ => rfl

theorem Sys2Proof.Laws.OpRoundTrip.tlbclr : Sys2Proof.Laws.OpRoundTrip.Statement .tlbclr := fun _ => rfl

theorem Sys2Proof.Laws.OpRoundTrip.cp15read (reg : Sys2Proof.Cp15Reg) :
    Sys2Proof.Laws.OpRoundTrip.Statement (.cp15read reg) := fun _ => rfl

theorem Sys2Proof.Laws.OpRoundTrip.cp15write (reg : Sys2Proof.Cp15Reg) (w : Sys2Proof.Word) :
    Sys2Proof.Laws.OpRoundTrip.Statement (.cp15write reg w) := fun _ => rfl
end

