-- ==== Sys2Proof/Laws/Requests.lean ====
section
/-! SUPPORT. What the memory requests of an instruction can do, said once. -/

namespace Sys2Proof.Machine

/-! ## The small lemmas of OnlyRequests -/

theorem OnlyRequests.refl (s : State) : OnlyRequests s s := ⟨rfl, rfl⟩

theorem OnlyR2.requests {s t : State} (h : OnlyR2 s t) : OnlyRequests s t := ⟨by rw [h.1], h.2⟩

theorem OnlyRequests.trans {s t u : State} (h1 : OnlyRequests s t) (h2 : OnlyRequests t u) : OnlyRequests s u :=
  ⟨by rw [h2.1, h1.1], by rw [h2.2, h1.2]⟩

theorem OnlyRequests.cfg {s t : State} (h : OnlyRequests s t) : t.cfg = s.cfg := by rw [h.1]
theorem OnlyRequests.pc {s t : State} (h : OnlyRequests s t) : t.pc = s.pc := by rw [h.1]
theorem OnlyRequests.cpsr {s t : State} (h : OnlyRequests s t) : t.cpsr = s.cpsr := by rw [h.1]
theorem OnlyRequests.m {s t : State} (h : OnlyRequests s t) : t.m = s.m := by rw [h.1]
theorem OnlyRequests.index {s t : State} (h : OnlyRequests s t) : t.index = s.index := by rw [h.1]
theorem OnlyRequests.random {s t : State} (h : OnlyRequests s t) : t.random = s.random := by rw [h.1]
theorem OnlyRequests.tlb {s t : State} (h : OnlyRequests s t) : t.tlb = s.tlb := by rw [h.1]
theorem OnlyRequests.trap {s t : State} (h : OnlyRequests s t) : t.trap = s.trap := by rw [h.1]
theorem OnlyRequests.source {s t : State} (h : OnlyRequests s t) : t.source = s.source := by rw [h.1]
theorem OnlyRequests.address {s t : State} (h : OnlyRequests s t) : t.address = s.address := by rw [h.1]
theorem OnlyRequests.inputs {s t : State} (h : OnlyRequests s t) : t.inputs = s.inputs := by rw [h.1]
theorem OnlyRequests.tlbSize {s t : State} (h : OnlyRequests s t) : t.tlbSize = s.tlbSize := by rw [State.tlbSize, h.tlb]; rfl
theorem OnlyRequests.mode {s t : State} (h : OnlyRequests s t) : t.mode = s.mode := by rw [State.mode, h.cfg, h.cpsr]; rfl

/-! ## One request -/

/-- A request that completes read or fetched a word, or wrote memory through a translated address. -/
theorem makeRequest_ok {r : Request} {s t : State} (h : makeRequest r s = .ok () t) :
    (∃ n va k w u, memRead s va n k = .ok w u ∧ t = u.give w) ∨
    (∃ n va v, r = .store n va v ∧ memWrite s va n v = .ok () t) := by
  cases r with
  | load n va =>
    simp only [makeRequest] at h
    cases hr : memRead s va n .read with
    | ok w u => rw [hr] at h; cases h; exact .inl ⟨n, va, .read, w, u, hr, rfl⟩
    | raised x u => rw [hr] at h; cases h
    | refused e => rw [hr] at h; cases h
  | fetch n va =>
    simp only [makeRequest] at h
    cases hr : memRead s va n .fetch with
    | ok w u => rw [hr] at h; cases h; exact .inl ⟨n, va, .fetch, w, u, hr, rfl⟩
    | raised x u => rw [hr] at h; cases h
    | refused e => rw [hr] at h; cases h
  | store n va v => exact .inr ⟨n, va, v, rfl, h⟩

/-- A request that raises has changed CP15.R2 alone (rule R143). -/
theorem makeRequest_raised {r : Request} {s t : State} {x : Trap} (h : makeRequest r s = .raised x t) : OnlyR2 s t := by
  cases r with
  | load n va =>
    simp only [makeRequest] at h
    cases hr : memRead s va n .read with
    | ok w u => rw [hr] at h; cases h
    | raised y u => rw [hr] at h; cases h; exact memRead_onlyR2 (by rw [hr]; rfl)
    | refused e => rw [hr] at h; cases h
  | fetch n va =>
    simp only [makeRequest] at h
    cases hr : memRead s va n .fetch with
    | ok w u => rw [hr] at h; cases h
    | raised y u => rw [hr] at h; cases h; exact memRead_onlyR2 (by rw [hr]; rfl)
    | refused e => rw [hr] at h; cases h
  | store n va v => exact memWrite_raised_onlyR2 h

theorem makeRequest_onlyRequests {r : Request} {s t : State} (h : makeRequest r s = .ok () t) : OnlyRequests s t := by
  rcases makeRequest_ok h with ⟨n, va, k, w, u, hr, rfl⟩ | ⟨n, va, v, _, hw⟩
  · exact (memRead_onlyR2 (by rw [hr]; rfl)).requests.trans ⟨rfl, rfl⟩
  · obtain ⟨_, pa, u, ht, hp⟩ := memWrite_ok hw
    have h1 := translate_onlyR2 (s := s) (t := u) (by rw [ht]; rfl)
    obtain ⟨_, rfl⟩ := physWrite_ok hp
    exact h1.requests.trans ⟨rfl, rfl⟩

/-! ## The requests of an instruction -/

/-- What the requests of an instruction can do, whether they complete or one raises: nothing but what OnlyRequests lists, and of memory
whatever holds of it before and is kept by every request that completes. -/
theorem makeRequests_keep {Q : Memory → Prop} {s : State}
    (hQ : ∀ r u t, OnlyRequests s u → Q u.mem → makeRequest r u = .ok () t → Q t.mem)
    (rs : List Request) : ∀ (stands : Nat) (mem : Memory) (results : List Word) (u t : State), Q mem → Q u.mem → OnlyRequests s u →
      (makeRequests rs stands mem results u).state? = some t → OnlyRequests s t ∧ Q t.mem := by
  induction rs with
  | nil =>
    intro stands mem results u t _ hu ho h
    cases h
    exact ⟨ho, hu⟩
  | cons r rs ih =>
    intro stands mem results u t hm hu ho h
    simp only [makeRequests] at h
    cases hr : makeRequest r u with
    | refused e => rw [hr] at h; cases h
    | raised x u1 =>
      rw [hr] at h
      cases h
      exact ⟨(ho.trans (makeRequest_raised hr).requests).trans ⟨rfl, rfl⟩, hm⟩
    | ok a u1 =>
      rw [hr] at h
      have h1 := hQ r u u1 ho hu hr
      have h2 := ho.trans (makeRequest_onlyRequests hr)
      cases stands with
      | zero => exact ih 0 mem results u1 t hm h1 h2 h
      | succ k => exact ih k u1.mem u1.results u1 t h1 h1 h2 h

theorem requestsOf_onlyRequests {tm : Term} {s t : State} (h : (requestsOf tm s).state? = some t) : OnlyRequests s t :=
  (makeRequests_keep (Q := fun _ => True) (fun _ _ _ _ _ _ => trivial) _ _ _ _ s t trivial trivial (.refl s) h).1

/-- Memory after the requests of an instruction has what it had before and every request keeps. -/
theorem requestsOf_mem {Q : Memory → Prop} {tm : Term} {s t : State}
    (hQ : ∀ r u t, OnlyRequests s u → Q u.mem → makeRequest r u = .ok () t → Q t.mem) (hs : Q s.mem)
    (h : (requestsOf tm s).state? = some t) : Q t.mem :=
  (makeRequests_keep hQ _ _ _ _ s t hs hs (.refl s) h).2

/-- Requests complete exactly when each of them does, in order. -/
theorem makeRequests_ok {rs : List Request} {stands : Nat} {mem : Memory} {results : List Word} {s t : State} :
    makeRequests rs stands mem results s = .ok () t ↔ Makes s rs t := by
  induction rs generalizing stands mem results s with
  | nil => simp [makeRequests, Makes, eq_comm]
  | cons r rs ih =>
    simp only [makeRequests, Makes]
    cases hr : makeRequest r s with
    | refused e => simp
    | raised x u => simp
    | ok a u =>
      cases stands <;> simp [ih]

/-- Where no request is to stand, or there is at most one, a raise leaves memory and the words handed to CORE as they were. -/
theorem makeRequests_raised {rs : List Request} {stands : Nat} {mem : Memory} {results : List Word} {s t : State} {x : Trap}
    (h : makeRequests rs stands mem results s = .raised x t) (hs : stands = 0 ∨ rs.length ≤ 1) : t.mem = mem ∧ t.results = results := by
  induction rs generalizing stands s with
  | nil => cases h
  | cons r rs ih =>
    simp only [makeRequests] at h
    cases hr : makeRequest r s with
    | refused e => rw [hr] at h; cases h
    | raised y u => rw [hr] at h; cases h; exact ⟨rfl, rfl⟩
    | ok a u =>
      rw [hr] at h
      rcases hs with rfl | hl
      · exact ih h (.inl rfl)
      · have : rs = [] := List.eq_nil_of_length_eq_zero (by rw [List.length_cons] at hl; omega)
        subst this
        cases stands <;> cases h

theorem requestsOf_load (n : Width) (va : Word) (s : State) : requestsOf (.load n va) s = handed (memRead s va n .read) := by
  simp only [requestsOf, termRequests, makeRequests, makeRequest]
  cases hr : memRead s va n .read with
  | ok w u => cases (instrRun s.inputs).stands <;> rfl
  | refused e => rfl
  | raised x u =>
    have h := memRead_onlyR2 (s := s) (t := u) (by rw [hr]; rfl)
    simp only [handed, ← h.mem, ← h.results]

theorem requestsOf_store (n : Width) (va v : Word) (s : State) : requestsOf (.store n va v) s = memWrite s va n v := by
  simp only [requestsOf, termRequests, makeRequests, makeRequest]
  cases hr : memWrite s va n v with
  | ok w u => cases (instrRun s.inputs).stands <;> rfl
  | refused e => rfl
  | raised x u =>
    have h := memWrite_raised_onlyR2 hr
    simp only [← h.mem, ← h.results]

/-- The seven instructions make no request (rule R100 c). -/
theorem requestsOf_instr (i : Instr) (s : State) : requestsOf (.instr i) s = .ok () s := rfl

/-- The execution of a term that is none of the seven instructions: its requests, then its end. -/
theorem execTerm_requests {tm : Term} {s : State} (h : ∀ i, tm ≠ .instr i) : execTerm tm s = finish s.pc (requestsOf tm s) := by
  cases tm with
  | instr i => exact absurd rfl (h i)
  | load n va => rfl
  | store n va v => rfl
  | core => rfl

end Sys2Proof.Machine
end

