-- ==== Sys2Proof/Laws/Step.lean ====
section
/-! SUPPORT. What each instruction, the refill, the delivery of an exception and a step can do, said once for each. -/

namespace Sys2Proof.Machine

/-! ## The instructions -/

theorem privileged_run {s : State} (r : Host.Outcome State Fault Refusal) (h : s.mode = .privileged) : privileged s r = r := by
  simp [privileged, h]

theorem privileged_user {s : State} (r : Host.Outcome State Fault Refusal) (h : s.mode = .user) :
    privileged s r = .refused .cp15InUserMode := by simp [privileged, h]

theorem privileged_next {s t : State} {r : Host.Outcome State Fault Refusal} (h : privileged s r = .next t) :
    s.mode = .privileged ∧ r = .next t := by
  cases hm : s.mode with
  | privileged => exact ⟨rfl, by rw [← h, privileged_run r hm]⟩
  | user => rw [privileged_user r hm] at h; cases h

theorem execTlbwi_next {s t : State} (h : execTlbwi s = .next t) :
    s.mode = .privileged ∧ s.index.tlbIndex.toNat < s.tlbSize ∧ t = s.setSlot s.index.tlbIndex.toNat s.r2 := by
  obtain ⟨hm, h⟩ := privileged_next h
  split at h
  · rename_i hi
    cases h
    exact ⟨hm, hi, rfl⟩
  · cases h

theorem execTlbwr_next {s t : State} (h : execTlbwr s = .next t) :
    s.mode = .privileged ∧ t = s.observeRandom.setSlot s.observeRandom.random.toNat s.r2 := by
  obtain ⟨hm, h⟩ := privileged_next h
  cases h
  exact ⟨hm, rfl⟩

theorem execTlbr_next {s t : State} (h : execTlbr s = .next t) :
    s.mode = .privileged ∧ ∃ e, s.tlb[s.index.tlbIndex.toNat]? = some e ∧ t = { s with r2 := e } := by
  obtain ⟨hm, h⟩ := privileged_next h
  split at h
  · rename_i e he
    cases h
    exact ⟨hm, e, he, rfl⟩
  · cases h

theorem execTlbp_next {s t : State} (h : execTlbp s = .next t) :
    s.mode = .privileged ∧ t = s.probed (s.matching s.r2.hi.vpn20 s.r2.hi.asid) := by
  obtain ⟨hm, h⟩ := privileged_next h
  cases h
  exact ⟨hm, rfl⟩

theorem execTlbclr_next {s t : State} (h : execTlbclr s = .next t) :
    s.mode = .privileged ∧ t = { s with tlb := clearUnsafe s.tlb } := by
  obtain ⟨hm, h⟩ := privileged_next h
  cases h
  exact ⟨hm, rfl⟩

theorem execCp15read_next {s t : State} {reg : Cp15Reg} (h : execCp15read reg s = .next t) :
    s.mode = .privileged ∧ t = ({ s.observedFor reg with draws := (s.observedFor reg).draws + 1 }).give
      (readRegister (s.observedFor reg) reg (BitVec.ofNat 32 (Config.free (s.observedFor reg).draws))) := by
  obtain ⟨hm, h⟩ := privileged_next h
  cases h
  exact ⟨hm, rfl⟩

theorem execCp15write_next {s t : State} {reg : Cp15Reg} {w : Word} (h : execCp15write reg w s = .next t) :
    s.mode = .privileged ∧ writeRegister s reg w = .next t := privileged_next h

/-- No instruction of the table touches what is CORE's, memory, or the configuration (rule R100 c), and none runs in User mode. -/
theorem exec_frame {i : Instr} {s t : State} (h : exec i s = .next t) :
    s.mode = .privileged ∧ t.cfg = s.cfg ∧ t.pc = s.pc ∧ t.cpsr = s.cpsr ∧ t.mem = s.mem ∧ t.trap = s.trap ∧
      t.source = s.source ∧ t.address = s.address ∧ t.inputs = s.inputs ∧ t.tlbSize = s.tlbSize := by
  cases i with
  | tlbwi =>
    obtain ⟨hm, _, rfl⟩ := execTlbwi_next h
    exact ⟨hm, by simp⟩
  | tlbwr =>
    obtain ⟨hm, rfl⟩ := execTlbwr_next h
    exact ⟨hm, by simp⟩
  | tlbr =>
    obtain ⟨hm, e, _, rfl⟩ := execTlbr_next h
    exact ⟨hm, rfl, rfl, rfl, rfl, rfl, rfl, rfl, rfl, rfl⟩
  | tlbp =>
    obtain ⟨hm, rfl⟩ := execTlbp_next h
    refine ⟨hm, ?_⟩
    cases s.matching s.r2.hi.vpn20 s.r2.hi.asid <;> exact ⟨rfl, rfl, rfl, rfl, rfl, rfl, rfl, rfl, rfl⟩
  | tlbclr =>
    obtain ⟨hm, rfl⟩ := execTlbclr_next h
    exact ⟨hm, rfl, rfl, rfl, rfl, rfl, rfl, rfl, rfl, by simp [State.tlbSize]⟩
  | cp15read reg =>
    obtain ⟨hm, rfl⟩ := execCp15read_next h
    refine ⟨hm, ?_⟩
    cases reg <;> exact ⟨rfl, rfl, rfl, rfl, rfl, rfl, rfl, rfl, rfl⟩
  | cp15write reg w =>
    obtain ⟨hm, h⟩ := execCp15write_next h
    refine ⟨hm, ?_⟩
    cases reg with
    | r8 => cases h
    | entryHi =>
      cases h
      simp [State.tlbSize]
    | r1 => cases h; exact ⟨rfl, rfl, rfl, rfl, rfl, rfl, rfl, rfl, rfl⟩
    | entryLo => cases h; exact ⟨rfl, rfl, rfl, rfl, rfl, rfl, rfl, rfl, rfl⟩
    | r10 => cases h; exact ⟨rfl, rfl, rfl, rfl, rfl, rfl, rfl, rfl, rfl⟩

/-! ## Random under the instructions -/

/-- Every instruction keeps Random in its range (rule R19). -/
theorem exec_randomOk {i : Instr} {s t : State} (hn : s.TlbSizeOk) (hr : s.RandomOk) (h : exec i s = .next t) : t.RandomOk := by
  have ho := observeRandom_randomOk hn hr
  cases i with
  | tlbwi =>
    obtain ⟨_, _, rfl⟩ := execTlbwi_next h
    simpa [State.RandomOk] using hr
  | tlbwr =>
    obtain ⟨_, rfl⟩ := execTlbwr_next h
    simpa [State.RandomOk] using ho
  | tlbr =>
    obtain ⟨_, e, _, rfl⟩ := execTlbr_next h
    exact hr
  | tlbp =>
    obtain ⟨_, rfl⟩ := execTlbp_next h
    cases s.matching s.r2.hi.vpn20 s.r2.hi.asid <;> exact hr
  | tlbclr =>
    obtain ⟨_, rfl⟩ := execTlbclr_next h
    simpa [State.RandomOk, State.tlbSize] using hr
  | cp15read reg =>
    obtain ⟨_, rfl⟩ := execCp15read_next h
    cases reg with
    | r8 => exact ho
    | r1 => exact hr
    | entryHi => exact hr
    | entryLo => exact hr
    | r10 => exact hr
  | cp15write reg w =>
    obtain ⟨_, h⟩ := execCp15write_next h
    cases reg with
    | r8 => cases h
    | entryHi =>
      cases h
      simpa [State.RandomOk, State.tlbSize] using hr
    | r1 => cases h; exact hr
    | entryLo => cases h; exact hr
    | r10 => cases h; exact hr

/-! ## The refill and the delivery of an exception -/

/-- A refill that loads: the entry the search found goes into a random slot. -/
theorem refill_ok {s t : State} {va : Word} {k : Kind} {u : Unit} (h : refill s va k = .ok u t) :
    ∃ e, refillSearch s va = .ok (.entry e) ∧ t = s.loadEntry e := by
  unfold refill at h
  split at h
  · cases h
  · cases h
  · cases h
  · cases h
  · rename_i e he
    cases h
    exact ⟨e, he, rfl⟩

/-- A refill that raises changes nothing. -/
theorem refill_raised {s s1 : State} {va : Word} {k : Kind} {t : Trap} (h : refill s va k = .raised t s1) :
    s1 = s ∧ ((refillSearch s va = .ok .badTable ∧ t = ⟨.badPgTbl, va, k, none⟩) ∨
      (refillSearch s va = .ok .noEntry ∧ t = ⟨.pteMiss, va, k, none⟩)) := by
  unfold refill at h
  split at h
  · cases h
  · cases h
  · rename_i hf
    cases h
    exact ⟨rfl, .inl ⟨hf, rfl⟩⟩
  · rename_i hf
    cases h
    exact ⟨rfl, .inr ⟨hf, rfl⟩⟩
  · cases h

/-- What the delivery of an exception does when the machine goes on: a TLB-Miss was refilled and the instruction is resumed, or
an exception that is no TLB-Miss is taken. -/
theorem deliver_next {insn : Word} {t : Trap} {s u : State} (h : deliver insn t s = .next u) :
    (t.exc = .tlbMiss ∧ ∃ e, refillSearch s t.va = .ok (.entry e) ∧ u = (s.loadEntry e).resume insn) ∨
    (∃ x, x.exc ≠ .tlbMiss ∧ u = s.takeException x) := by
  unfold deliver at h
  split at h
  · rename_i hm
    split at h
    · rename_i s1 hr
      obtain ⟨e, he, rfl⟩ := refill_ok hr
      cases h
      exact .inl ⟨hm, e, he, rfl⟩
    · rename_i t1 s1 hr
      obtain ⟨rfl, ⟨_, rfl⟩ | ⟨_, rfl⟩⟩ := refill_raised hr
      · cases h
        exact .inr ⟨_, by simp, rfl⟩
      · cases h
        exact .inr ⟨_, by simp, rfl⟩
    · cases h
  · rename_i hm
    cases h
    exact .inr ⟨t, hm, rfl⟩

/-! ## A step -/

theorem advanced_next {o : Host.Outcome State Fault Refusal} {t : State} (h : advanced o = .next t) :
    ∃ u, o = .next u ∧ t = u.advance := by
  cases o with
  | next u => cases h; exact ⟨u, rfl, rfl⟩
  | fault r => cases h
  | refused r => cases h

theorem fetch_onlyR2 {s t : State} {w : Word} (h : fetch s = .ok w t) : OnlyR2 s t :=
  memRead_onlyR2 (s := s) (by rw [← fetch, h]; rfl)

/-- A step in which CORE makes no move runs the instruction at the pc. -/
theorem step_executes {s : State} (h : s.Executes) : step s = runInstruction s := by
  obtain ⟨ht, hi⟩ := h
  unfold step
  rw [ht]
  cases hin : s.inputs with
  | nil => rfl
  | cons x xs =>
    cases x with
    | proceed r => rfl
    | move m => rw [hin] at hi; cases hi

/-- A step is a move of CORE, or it runs the instruction at the pc. -/
theorem step_move_or_executes {s t : State} (h : step s = .next t) :
    (∃ x xs, s.trap = none ∧ s.inputs = .move x :: xs ∧ t = x.apply { s with inputs := xs }) ∨
    (s.Executes ∧ runInstruction s = .next t) := by
  cases ht : s.trap with
  | some x => simp only [step, ht] at h; cases h
  | none =>
    cases hin : s.inputs with
    | nil =>
      have he : s.Executes := ⟨ht, by rw [hin]; rfl⟩
      exact .inr ⟨he, by rw [← step_executes he, h]⟩
    | cons x xs =>
      cases x with
      | proceed r =>
        have he : s.Executes := ⟨ht, by rw [hin]; rfl⟩
        exact .inr ⟨he, by rw [← step_executes he, h]⟩
      | move m =>
        simp only [step, ht, hin] at h
        cases h
        exact .inl ⟨m, xs, rfl, rfl, rfl⟩

/-- A step that raises an exception delivers it, for the instruction at the pc; before, memory requests alone were made. -/
theorem StepRaises.deliver {s s1 : State} {x : Trap} (h : StepRaises s x s1) :
    OnlyRequests s s1 ∧ step s = deliver s.pc x s1 := by
  obtain ⟨he, h⟩ := h
  rw [step_executes he]
  rcases h with hf | ⟨w, s0, tm, hf, hc, hd, hr⟩
  · exact ⟨(memRead_onlyR2 (by rw [← fetch, hf]; rfl)).requests, by simp only [runInstruction, hf]⟩
  · have h1 := fetch_onlyR2 hf
    have ht : ∀ i, tm ≠ .instr i := by
      rintro i rfl
      rw [requestsOf_instr] at hr
      cases hr
    refine ⟨h1.requests.trans (requestsOf_onlyRequests (by rw [hr]; rfl)), ?_⟩
    simp only [runInstruction, hf, hd, hc, if_true, execTerm_requests ht, hr, finish, h1.pc]

/-- Where no request of the instruction stands, a step that raises has changed neither memory nor the words handed to CORE. -/
theorem StepRaises.nothingStands {s s1 : State} {x : Trap} (h : StepRaises s x s1) (hn : s.NothingStands) :
    s1.mem = s.mem ∧ s1.results = s.results := by
  obtain ⟨_, hf | ⟨w, s0, tm, hf, _, hd, hr⟩⟩ := h
  · have := memRead_onlyR2 (s := s) (t := s1) (by rw [← fetch, hf]; rfl)
    exact ⟨this.mem, this.results⟩
  · have h1 := fetch_onlyR2 hf
    rw [← h1.mem, ← h1.results]
    cases tm with
    | instr i => rw [requestsOf_instr] at hr; cases hr
    | load n va => exact makeRequests_raised hr (.inr (Nat.le_refl 1))
    | store n va v => exact makeRequests_raised hr (.inr (Nat.le_refl 1))
    | core =>
      rw [requestsOf, h1.inputs] at hr
      rcases hn with hn | hn | hn
      · exact makeRequests_raised hr (.inl hn)
      · exact makeRequests_raised hr (.inr hn)
      · exact absurd hd (hn w s0 hf)

/-- Everything a step can do when it answers a next state: a move of CORE; an exception of the fetch or of a request delivered, for the
instruction at the pc; an instruction of the table; an instruction of CORE whose requests complete, LOAD and STORE among them; an
instruction whose condition fails. -/
theorem step_cases {s t : State} (h : step s = .next t) :
    (∃ x xs, s.trap = none ∧ s.inputs = .move x :: xs ∧ t = x.apply { s with inputs := xs }) ∨
    (∃ x s1, StepRaises s x s1 ∧ Machine.deliver s.pc x s1 = .next t) ∨
    (s.Executes ∧ ∃ w s1 tm, fetch s = .ok w s1 ∧ decode s.cfg.decode w s.source s.address = .term tm ∧
      (((instrRun s.inputs).holds = true ∧ ∃ i u, tm = .instr i ∧ exec i s1 = .next u ∧ t = u.advance) ∨
       ((instrRun s.inputs).holds = true ∧ ∃ s2, requestsOf tm s1 = .ok () s2 ∧ t = s2.advance) ∨
       ((instrRun s.inputs).holds = false ∧ t = s1.advance))) := by
  rcases step_move_or_executes h with h | ⟨he, h⟩
  · exact .inl h
  · refine .inr ?_
    unfold runInstruction at h
    split at h
    · rename_i x s1 hf
      exact .inl ⟨x, s1, ⟨he, .inl hf⟩, h⟩
    · cases h
    · rename_i w s1 hf
      have hs := fetch_onlyR2 hf
      split at h
      · cases h
      · rename_i tm hd
        cases hc : (instrRun s.inputs).holds with
        | false =>
          rw [hc] at h
          cases h
          exact .inr ⟨he, w, s1, tm, hf, hd, .inr (.inr ⟨rfl, rfl⟩)⟩
        | true =>
          rw [hc, if_pos rfl] at h
          by_cases hi : ∃ i, tm = .instr i
          · obtain ⟨i, rfl⟩ := hi
            obtain ⟨u, hu, rfl⟩ := advanced_next h
            exact .inr ⟨he, w, s1, _, hf, hd, .inl ⟨rfl, i, u, rfl, hu, rfl⟩⟩
          · rw [execTerm_requests (fun i hi' => hi ⟨i, hi'⟩)] at h
            cases hr : requestsOf tm s1 with
            | refused e => rw [hr] at h; cases h
            | ok a s2 =>
              rw [hr] at h
              cases h
              exact .inr ⟨he, w, s1, tm, hf, hd, .inr (.inl ⟨rfl, s2, hr, rfl⟩)⟩
            | raised x s2 =>
              rw [hr, finish, hs.pc] at h
              exact .inl ⟨x, s2, ⟨he, .inr ⟨w, s1, tm, hf, hc, hd, hr⟩⟩, h⟩

end Sys2Proof.Machine
end

