-- ==== Sys2Proof/Laws/Refill.lean ====
section
/-! SUPPORT. The search of the refill: rows that do not match are passed over, and what it finds matches. -/

namespace Sys2Proof.Machine

theorem readRow_of {s : State} {t : Word} {k : Nat} {e : Pte} (h : RowIs s t k e) : readRow s t.toNat k = .ok e := by
  obtain ⟨hi, lo, h1, h2, rfl⟩ := h
  simp only [readRow, h1, h2]

/-- The search passes over rows that do not match (rule R127). -/
theorem searchRows_skip {s : State} {t : Word} {v : BitVec 20} (j left k : Nat)
    (h : ∀ i, i < j → ∃ r, RowIs s t (k + i) r ∧ ¬ Matches r v s.r2.hi.asid) :
    searchRows s t.toNat v (j + left) k = searchRows s t.toNat v left (k + j) := by
  induction j generalizing k with
  | zero => simp
  | succ j ih =>
    obtain ⟨r, hr, hm⟩ := h 0 (by omega)
    have hstep := ih (k + 1) (fun i hi => by
      have := h (i + 1) (by omega)
      rwa [show k + (i + 1) = k + 1 + i by omega] at this)
    rw [show j + 1 + left = (j + left) + 1 by omega, show k + (j + 1) = k + 1 + j by omega, ← hstep]
    simp only [searchRows, readRow_of (show RowIs s t k r from hr), tlbMatch_eq_false hm]
    simp

/-- On a Page Table that passes the checks, the refill finds what the search finds (rules R126, R127). -/
theorem searchTable_entry {s : State} {t h : Word} {v : BitVec 20} {e : Pte} (hg : GoodTable s t h)
    (hs : searchRows s t.toNat v (headerCount h) 0 = .ok (some e)) : searchTable s t.toNat v = .ok (.entry e) := by
  obtain ⟨h1, h2, h3, h4, h5, h6⟩ := hg
  have c1 : ¬ ¬ (reservedTop < t.toNat ∧ t.toNat % 4 = 0 ∧ t.toNat + 4 ≤ s.cfg.ramTop) := not_not.2 ⟨h1, h2, h3⟩
  have c2 : ¬ ¬ (headerMagic h = pgTblMagic ∧ t.toNat + pgTblSize (headerCount h) < s.cfg.ramTop) := not_not.2 ⟨h5, h6⟩
  simp only [searchTable, if_neg c1, h4, if_neg c2, hs]

/-- On a Page Table that passes the checks, a search that finds no row finds no entry (rule R128). -/
theorem searchTable_noEntry {s : State} {t h : Word} {v : BitVec 20} (hg : GoodTable s t h)
    (hs : searchRows s t.toNat v (headerCount h) 0 = .ok none) : searchTable s t.toNat v = .ok .noEntry := by
  obtain ⟨h1, h2, h3, h4, h5, h6⟩ := hg
  have c1 : ¬ ¬ (reservedTop < t.toNat ∧ t.toNat % 4 = 0 ∧ t.toNat + 4 ≤ s.cfg.ramTop) := not_not.2 ⟨h1, h2, h3⟩
  have c2 : ¬ ¬ (headerMagic h = pgTblMagic ∧ t.toNat + pgTblSize (headerCount h) < s.cfg.ramTop) := not_not.2 ⟨h5, h6⟩
  simp only [searchTable, if_neg c1, h4, if_neg c2, hs]

theorem searchRows_matches {s : State} {t : Nat} {v : BitVec 20} {e : Pte} {left k : Nat}
    (h : searchRows s t v left k = .ok (some e)) : tlbMatch e v s.r2.hi.asid = true := by
  induction left generalizing k with
  | zero => cases h
  | succ left ih =>
    simp only [searchRows] at h
    split at h
    · cases h
    · cases h
    · split at h
      · rename_i hm
        cases h
        exact hm
      · exact ih h

/-- The entry the refill finds matches the page that missed (rule R127). -/
theorem refillSearch_matches {s : State} {va : Word} {e : Pte} (h : refillSearch s va = .ok (.entry e)) :
    tlbMatch e (vpn20Of va) s.r2.hi.asid = true := by
  simp only [refillSearch] at h
  split at h
  · cases h
  · cases h
  · simp only [searchTable] at h
    split at h
    · cases h
    · split at h
      · cases h
      · cases h
      · split at h
        · cases h
        · split at h
          · cases h
          · cases h
          · rename_i hs
            cases h
            exact searchRows_matches hs
          · cases h

end Sys2Proof.Machine
end

