-- ==== Sys2Proof/Tests/Slice0.lean ====
section
/-! SUPPORT. Tests: the checks of WellFormed refuse ill-formed parameters, words decode, single steps give the outcomes of
95_test_vectors.md, and every statement with hypotheses has a state and operands that meet them all. -/

namespace Sys2Proof.Tests

open Sys2Proof Sys2Proof.Machine

/-! ## Set-ups T and F of 95_test_vectors.md -/

/-- A Page Table Entry in the notation of 95_test_vectors.md, (VPN20, ASID | PFN, D, V, G). -/
def pte (vpn20 : BitVec 20) (asid : BitVec 7) (pfn : BitVec 20) (d v g : Bool) : Pte := ⟨⟨vpn20, asid⟩, ⟨pfn, d, v, g⟩⟩

def kernelPage : Pte := pte 0x00008 0 0x00008 true true true

/-- The TLB of set-up T. -/
def tlbT : List Pte :=
  [ kernelPage, pte 0x80000 5 0x00020 true true false, pte 0x80001 5 0x00021 false true false,
    pte 0x80002 5 0x00022 true false false, pte 0xC0000 9 0x00030 true true true, pte 0x80003 6 0x00023 true true false,
    pte 0x80004 5 0x00200 true true false, pte 0x80005 5 0x00022 false false false ]

/-- The standard parameters with words for three more instructions of CORE, the LOAD and the STORE of program 3 among them. -/
def cfgT : Config :=
  { Config.standard with
    decode := ⟨0x41, .load .word (.given 0x80001008)⟩ :: ⟨0x42, .store .word (.given 0x80001008) (.given 0x12345678)⟩ ::
      ⟨0x43, .store .word (.given 0x8000) (.given 0xCAFEF00D)⟩ :: Config.standardDecode }

/-- Set-up T: User mode, M = 1, current ASID 5. -/
def setupT : State where
  cfg := cfgT
  pc := 0x80000000
  cpsr := 1
  m := true
  r2 := pte 0x80007 5 0x00027 true true false
  index := ⟨3, true⟩
  random := 7
  tlb := tlbT
  mem := []
  trap := none
  results := []
  source := 0
  address := 0
  inputs := []
  draws := 0

/-- Set-up T in Privileged mode with M = 0, as section 6 of the vectors has it. -/
def kernelT : State := { setupT with cpsr := 0, m := false, pc := 0x7000 }

/-- Words in memory, from their addresses, in the byte order of the parameters. -/
def withWords (s : State) (ws : List (Nat × Word)) : State :=
  ws.foldl (fun t x => { t with mem := t.mem.writeBytes x.1 (t.cfg.byteOrder.split 4 x.2) }) s

/-- The memory of set-up F. -/
def wordsF : List (Nat × Word) :=
  [ (0x9040, 0x0000A000), (0xA000, 0x2A000003), (0xA004, 0x800000A0), (0xA008, 0x00020600),
    (0xA00C, 0x800010A0), (0xA010, 0x00021200), (0xA014, 0x800020A0), (0xA018, 0x00022400) ]

/-- Set-up F: no slot for the pages used. -/
def setupF : State := withWords { setupT with tlb := kernelPage :: List.replicate 7 zeroPte } wordsF

/-- Set-up F with other words stored over it. -/
def changedF (ws : List (Nat × Word)) : State := withWords setupF ws

def pa? : Res Word → Option Word
  | .ok a _ => some a
  | _ => none

def exc? {α : Type} : Res α → Option Exc
  | .raised t _ => some t.exc
  | _ => none

def refusal? {α : Type} : Res α → Option Refusal
  | .refused r => some r
  | _ => none

def next? : Host.Outcome State Fault Refusal → Option State
  | .next t => some t
  | _ => none

def stop? : Host.Outcome State Fault Refusal → Option Refusal
  | .refused r => some r
  | _ => none

theorem next_of_isSome {o : Host.Outcome State Fault Refusal} (h : (next? o).isSome = true) : ∃ t, o = .next t := by
  cases o with
  | next t => exact ⟨t, rfl⟩
  | fault r => cases h
  | refused r => cases h

/-! ## Ill-formed parameters are refused -/

theorem test_standard_config_is_wellFormed : Config.standard.wf = true ∧ cfgT.wf = true := by decide

theorem test_tlbSize_3_and_65_are_illFormed :
    ({ Config.standard with tlbSize := 3 }).wf = false ∧ ({ Config.standard with tlbSize := 65 }).wf = false := by decide

theorem test_ramTop_at_reservedTop_or_unaligned_is_illFormed :
    ({ Config.standard with ramTop := 0x8000 }).wf = false ∧ ({ Config.standard with ramTop := 0x9001 }).wf = false := by decide

theorem test_overlapping_fields_are_illFormed :
    ({ Config.standard with hi := ⟨12, 6⟩ }).wf = false ∧ ({ Config.standard with lo := ⟨12, 10, 10, 8⟩ }).wf = false ∧
    ({ Config.standard with random := 27 }).wf = false ∧ ({ Config.standard with m := 32 }).wf = false := by decide

theorem test_unaligned_segment_table_is_illFormed :
    ({ Config.standard with segTable := .rows 0x9002 }).wf = false ∧
    ({ Config.standard with segTable := .listed [0x9000] }).wf = false := by decide

theorem test_bus_range_over_ram_is_illFormed :
    ({ Config.standard with bus := some [⟨0x6FF0, 0x20, .rom⟩] }).wf = false := by decide

theorem test_word_with_two_meanings_is_illFormed :
    ({ Config.standard with decode := [⟨1, .tlbwi⟩, ⟨1, .tlbwr⟩] }).wf = false := by decide

theorem test_instruction_without_a_word_is_illFormed :
    Instr.wellFormed [⟨1, .tlbwi⟩] .tlbr = false ∧ Instr.wellFormed Config.standardDecode .tlbr = true := by decide

/-! ## Decoding

The words are the stand-ins of notes/assumptions/2.md, for the spec gives no encoding; what these tests show of the decoder is that a
word of DECODE stands for its row's term in either byte order, and that any other word is rejected. -/

theorem test_decode_tlb_instructions :
    decodeTableWord 64 0x01 = some .tlbwi ∧ decodeTableWord 64 0x02 = some .tlbwr ∧ decodeTableWord 64 0x03 = some .tlbr ∧
    decodeTableWord 64 0x04 = some .tlbp ∧ decodeTableWord 64 0x05 = some .tlbclr := by decide

theorem test_decode_cp15read :
    decodeTableWord 64 0x11 = some (.cp15read .r1) ∧ decodeTableWord 64 0x12 = some (.cp15read .entryHi) ∧
    decodeTableWord 64 0x13 = some (.cp15read .entryLo) ∧ decodeTableWord 64 0x14 = some (.cp15read .r8) ∧
    decodeTableWord 64 0x15 = some (.cp15read .r10) := by decide

theorem test_decode_cp15write_takes_the_source_word :
    decodeTableWord 64 0x800000A000000022 = some (.cp15write .entryHi 0x800000A0) ∧
    decodeTableWord 64 0x0000000100000021 = some (.cp15write .r1 1) ∧
    decodeTableWord 32 0x23 = some (.cp15write .entryLo 0) ∧
    decodeTableWord 64 0x80003F0000000025 = some (.cp15write .r10 0x80003F00) := by decide

theorem test_decode_rejects_other_words :
    decodeTableWord 64 0 = none ∧ decodeTableWord 64 0x06 = none ∧ decode cfgT.decode 0x26 0 0 = .undecodable ∧
    decodeBytes cfgT [1, 0, 0] 0 0 = .undecodable := by decide

theorem test_decode_bytes_in_either_byte_order :
    decodeBytes cfgT [0x24, 0, 0, 0] 9 0 = .term (.instr (.cp15write .r8 9)) ∧
    decodeBytes { cfgT with byteOrder := .big } [0, 0, 0, 0x34] 7 0x8000 = .term (.store .word 0x8000 7) := by decide

theorem test_encode_of_cp15write : encode Config.standardDecode (.cp15write .r10 0x200) = some (0x25, 0x200) := by decide

/-! ## The instructions: vectors I1 to I21 and W1 to W12 -/

/-- I1, I5: P = 1 is not consulted. -/
theorem test_tlbwi_writes_slot_3 :
    (next? (exec .tlbwi kernelT)).map (·.tlb) = some (tlbT.set 3 (pte 0x80007 5 0x00027 true true false)) := by decide

/-- I2: the safe slot is writable. -/
theorem test_tlbwi_writes_slot_0 :
    (next? (exec .tlbwi { kernelT with index := ⟨0, false⟩ })).map (·.tlb[0]?) = some (some (pte 0x80007 5 0x00027 true true false)) := by
  decide

/-- I6: the safe slot stays. -/
theorem test_tlbwr_keeps_slot_0 : ∃ t, exec .tlbwr kernelT = .next t ∧ t.tlb[0]? = some kernelPage := by
  refine ⟨_, rfl, ?_⟩
  have h : kernelT.observeRandom.RandomOk := observeRandom_randomOk (by decide) (by decide)
  exact setSlot_other _ (by have := h.1; omega)

/-- I8: the current ASID becomes 9. -/
theorem test_tlbr_reads_slot_4 :
    (next? (exec .tlbr { kernelT with index := ⟨4, false⟩ })).map (·.r2) = some (pte 0xC0000 9 0x00030 true true true) := by decide

/-- I10, and I4 for TLBWI. -/
theorem test_tlbr_refuses_index_9 :
    stop? (exec .tlbr { kernelT with index := ⟨9, false⟩ }) = some .tlbIndexOutOfRange ∧
    stop? (exec .tlbwi { kernelT with index := ⟨8, false⟩ }) = some .tlbIndexOutOfRange := by decide

/-- I12, I15: a global slot of another ASID is found, and an invalid one. -/
theorem test_tlbp_finds_slots_4_and_7 :
    (next? (exec .tlbp { kernelT with r2 := pte 0xC0000 5 0 false false false })).map (·.index) = some ⟨4, false⟩ ∧
    (next? (exec .tlbp { kernelT with r2 := pte 0x80005 5 0 false false false })).map (·.index) = some ⟨7, false⟩ := by decide

/-- I13: slot 5 belongs to ASID 6. -/
theorem test_tlbp_sets_p_without_a_match :
    (next? (exec .tlbp { kernelT with r2 := pte 0x80003 5 0 false false false })).map (·.index.p) = some true := by decide

/-- I17. -/
theorem test_tlbclr_zeroes_slots_1_to_7 :
    (next? (exec .tlbclr kernelT)).map (·.tlb) = some (kernelPage :: List.replicate 7 (pte 0 0 0 false false false)) := by decide

/-- W10: TLBIndex 2 in bits 13 to 8 and P = 0 in bit 31, whatever the other bits are. -/
theorem test_cp15read_r10 :
    ∃ t w, exec (.cp15read .r10) { kernelT with index := ⟨2, false⟩ } = .next t ∧ t.results = [w] ∧
      getField w 8 6 = 2 ∧ getFlag w 31 = false := by
  refine ⟨_, _, rfl, rfl, ?_⟩
  have h := indexFields_placeIndex cfgT.index ⟨2, false⟩ (BitVec.ofNat 32 (Config.free 0)) (by decide)
  exact ⟨congrArg Index.tlbIndex h, congrArg Index.p h⟩

/-- W12, with the eight slots of set-up T. -/
theorem test_cp15read_r8_names_an_unsafe_slot :
    ∃ t w, exec (.cp15read .r8) kernelT = .next t ∧ t.results = [w] ∧ 1 ≤ (getField w 8 6).toNat ∧ (getField w 8 6).toNat ≤ 7 := by
  refine ⟨_, _, rfl, rfl, ?_⟩
  have h : kernelT.observeRandom.RandomOk := observeRandom_randomOk (by decide) (by decide)
  have hw := getField_putField_same (BitVec.ofNat 32 (Config.free 1)) 8 kernelT.observeRandom.random (by decide)
  rw [show readRegister _ _ _ = putField (BitVec.ofNat 32 (Config.free 1)) 8 kernelT.observeRandom.random from rfl, hw]
  exact ⟨h.1, Nat.le_of_lt_succ h.2⟩

/-- W2, W3, W6: the fields of the halves of CP15.R2, bits outside them ignored. -/
theorem test_cp15write_halves_of_r2 :
    (next? (exec (.cp15write .entryHi 0x800000BF) kernelT)).map (·.r2.hi) = some ⟨0x80000, 5⟩ ∧
    (next? (exec (.cp15write .entryHi 0xFFFFFFE0) kernelT)).map (·.r2.hi) = some ⟨0xFFFFF, 127⟩ ∧
    (next? (exec (.cp15write .entryLo 0x000218FF) kernelT)).map (·.r2.lo) = some ⟨0x00021, false, false, false⟩ := by decide

/-- W8, W9, I22, I23. -/
theorem test_cp15write_index_and_m :
    (next? (exec (.cp15write .r10 0x80003F00) kernelT)).map (·.index) = some ⟨63, true⟩ ∧
    (next? (exec (.cp15write .r1 1) kernelT)).map (·.m) = some true ∧
    stop? (exec (.cp15write .r8 0) kernelT) = some .writeToReadOnlyRandom ∧
    stop? (exec (.cp15write .r1 1) { kernelT with cpsr := 1 }) = some .cp15InUserMode := by decide

/-! ## Translation: vectors T1 to T27, P1 to P8 -/

/-- T1, T2, T4, T10, T12, T15, T17, T27: the physical addresses. -/
theorem test_translate_addresses :
    pa? (translateVa setupT 0x80000123 .read) = some 0x00020123 ∧ pa? (translateVa setupT 0x80000123 .write) = some 0x00020123 ∧
    pa? (translateVa setupT 0x80001FFC .read) = some 0x00021FFC ∧ pa? (translateVa setupT 0xC0000ABC .read) = some 0x00030ABC ∧
    pa? (translateVa { setupT with r2 := pte 0 6 0 false false false } 0x80003000 .read) = some 0x00023000 ∧
    pa? (translateVa { setupT with cpsr := 0 } 0x00008004 .fetch) = some 0x00008004 ∧
    pa? (translateVa { setupT with cpsr := 0 } 0x00007FFC .read) = some 0x00007FFC ∧
    pa? (translateVa { setupT with cpsr := 0, tlb := tlbT.set 3 (pte 0x80006 5 7 true true false) } 0x80006000 .read) =
      some 0x00007000 := by decide

/-- T5, T6, T8, T9, T11, T16, T18, T19, T20: the exceptions, and which comes first. -/
theorem test_translate_exceptions :
    exc? (translateVa setupT 0x80001FFC .write) = some .tlbModification ∧
    exc? (translateVa { setupT with cpsr := 0 } 0x80001FFC .write) = some .tlbModification ∧
    exc? (translateVa setupT 0x80002000 .write) = some .tlbInvalid ∧ exc? (translateVa setupT 0x80005000 .write) = some .tlbInvalid ∧
    exc? (translateVa setupT 0x80003000 .read) = some .tlbMiss ∧ exc? (translateVa setupT 0x00008004 .read) = some .addressError ∧
    exc? (translateVa setupT 0x00007FFC .read) = some .addressError ∧
    exc? (translateVa { setupT with cpsr := 0 } 0x00009000 .read) = some .tlbMiss ∧
    exc? (translateVa setupT 0x7FFFFFFC .read) = some .addressError := by decide

/-- T14, T23, T26, P6, P7, E6: bus errors and refusals. -/
theorem test_access_stops :
    exc? (memRead setupT 0x80004010 .word .read) = some .busError ∧ refusal? (memRead setupT 0x80000122 .word .read) = some .misaligned ∧
    refusal? (translateVa { setupT with tlb := tlbT.set 3 (pte 0x80006 5 7 true true false) } 0x80006000 .read) =
      some .userTranslationIntoReserved ∧
    exc? (memRead kernelT 0x00100000 .word .read) = some .busError ∧ refusal? (memRead kernelT 0 .word .read) = some .busFunctions ∧
    refusal? (memRead State.reset 0x00008000 .word .read) = some .unwrittenMemory := by decide

/-- P5, P8: the last word of RAM, and a word read back. -/
theorem test_ram_reads_back :
    (memWrite kernelT 0x000FFFFC .word 0x11223344).state?.map (fun t => pa? (memRead t 0x000FFFFC .word .read)) =
      some (some 0x11223344) ∧
    (memWrite kernelT 0x000FFFFC .word 0x11223344).state?.map (fun t => pa? (memRead t 0x000FFFFE .half .read)) =
      some (some 0x1122) := by decide

/-! ## The refill: vectors F1 to F18 -/

def found? : BusResult Found → Option Found
  | .ok f => some f
  | _ => none

/-- F1, F4, F18: the row that matches, no row, a global row of another ASID. -/
theorem test_refill_search :
    found? (refillSearch setupF 0x80001008) = some (.entry (pte 0x80001 5 0x00021 false true false)) ∧
    found? (refillSearch setupF 0x80003000) = some .noEntry ∧
    found? (refillSearch (changedF [(0xA00C, 0x80001120), (0xA010, 0x00021300)]) 0x80001008) =
      some (.entry (pte 0x80001 9 0x00021 false true true)) := by decide

/-- F5, F6, F7, F8, F13: tables that fail a check. -/
theorem test_refill_bad_tables :
    found? (refillSearch (changedF [(0x9040, 0xA102)]) 0x80001008) = some .badTable ∧
    found? (refillSearch (changedF [(0x9040, 0x8000)]) 0x80001008) = some .badTable ∧
    found? (refillSearch (changedF [(0x9040, 0x7F00)]) 0x80001008) = some .badTable ∧
    found? (refillSearch (changedF [(0xA000, 0x2B000003)]) 0x80001008) = some .badTable ∧
    found? (refillSearch (changedF [(0x9040, 0x100000)]) 0x80001008) = some .badTable := by decide

/-- F9, F10, F12: the upper boundary of a table, and D21: bits 23 to 20 of the header are ignored. -/
theorem test_refill_table_boundary :
    found? (refillSearch (changedF [(0x9040, 0xFFFF0), (0xFFFF0, 0x2A000001), (0xFFFF4, 0x800010A0), (0xFFFF8, 0x21200)]) 0x80001008) =
      some (.entry (pte 0x80001 5 0x00021 false true false)) ∧
    found? (refillSearch (changedF [(0x9040, 0xFFFF4), (0xFFFF4, 0x2A000001)]) 0x80001008) = some .badTable ∧
    found? (refillSearch (changedF [(0x9040, 0xFFFFC), (0xFFFFC, 0x2A000000)]) 0x80001008) = some .badTable ∧
    found? (refillSearch (changedF [(0xA000, 0x2AF00002)]) 0x80002000) = some .noEntry := by decide

/-- F14, F16: Kseg0 has one row for SEGNO 0 and 1; the rows of ASIDs 0, 5 and 127. -/
theorem test_segment_table_rows :
    segTableAddress (.rows 0x9000) 5 (segmentOf 0x00009000) = 0x903C ∧ segTableAddress (.rows 0x9000) 5 (segmentOf 0x40000000) = 0x903C ∧
    segTableAddress (.rows 0x9000) 5 (segmentOf 0xC0000000) = 0x9044 ∧ segTableAddress (.rows 0x9000) 0 (segmentOf 0x80000000) = 0x9004 ∧
    segTableAddress (.rows 0x9000) 127 (segmentOf 0x80000000) = 0x95F8 := by decide

/-! ## Steps -/

/-- TLBCLR as the first instruction after reset. -/
theorem test_step_runs_tlbclr_after_reset :
    (next? (step (State.reset.withFetchWord 64 0x05))).map (fun t => (t.tlb.drop 1, t.pc, t.m)) =
      some (List.replicate 7 zeroPte, 0x7004, false) := by decide

/-- CP15WRITE R1, 1 as the first instruction after reset. -/
theorem test_step_runs_cp15write_after_reset :
    (next? (step (State.reset.withFetchWord 64 0x0000000100000021))).map (fun t => (t.m, t.pc)) = some (true, 0x7004) := by decide

/-- Program 3, steps a and b: the miss on the fetch is refilled and the instruction resumed; memory and the ASID stay. -/
theorem test_step_refills_a_missed_fetch :
    (next? (step setupF)).map (fun t => (t.pc, t.r2.hi.asid, t.mem)) = some (0x80000000, 5, setupF.mem) ∧
    (next? (step setupF)).map (fun t => (t.trap, t.results)) = some (none, []) := by decide

/-- Program 3 on set-up T: the LOAD of step f, and the STORE of step h, which ends in trapped(TLB-Modification, va, write) (E4). -/
def atLoad : State := withWords setupT [(0x20000, 0x41), (0x21008, 0x00000BEE)]
def atStore : State := withWords setupT [(0x20000, 0x42), (0x21008, 0x00000BEE)]

theorem test_step_runs_a_load :
    (next? (step atLoad)).map (fun t => (t.results, t.pc, t.trap)) = some ([0xBEE], 0x80000004, none) := by decide

theorem test_step_traps_a_store :
    (next? (step atStore)).map (fun t => (t.trap, t.pc, t.mem)) =
      some (some ⟨.tlbModification, 0x80001008, .write, none⟩, 0x80000000, atStore.mem) := by decide

/-- A STORE and an instruction of CORE without a request, of the standard configuration, CORE having more to do after them. -/
def atSuppliedStore : State :=
  { withWords kernelT [(0x7000, 0x34)] with source := 0xCAFEF00D, address := 0x8000, inputs := [.proceed {}, .move (.cpsr 1)] }
def atCoreInstruction : State := { withWords kernelT [(0x7000, 0x30)] with inputs := [.proceed {}, .move (.pc 0x8000), .proceed {}] }

/-- Between two instructions: the completed TLBCLR leaves CORE at its next move, a served TLB-Miss leaves it at the instruction. -/
theorem test_step_goes_on_with_what_core_does_next :
    (next? (step { kernelT.withFetchWord 64 0x05 with inputs := [.proceed {}, .move (.source 9), .proceed {}] })).map (·.inputs) =
      some [.move (.source 9), .proceed {}] ∧
    (next? (step { setupF with inputs := [.proceed {}, .move (.source 9)] })).map (·.inputs) = some [.proceed {}, .move (.source 9)] ∧
    (next? (step { kernelT with inputs := [.move (.source 9), .proceed {}] })).map (fun t => (t.source, t.inputs)) =
      some (9, [.proceed {}]) := by decide

/-- A STORE with the operands CORE supplies. -/
theorem test_step_stores_what_core_supplies :
    (next? (step atSuppliedStore)).map (fun t => (t.mem.readBytes 0x8000 4, t.pc, t.inputs)) =
      some (some [0x0D, 0xF0, 0xFE, 0xCA], 0x7004, [.move (.cpsr 1)]) := by decide

/-- An instruction of CORE at a translated pc, with the requests CORE supplies to it: of a LOAD and two STOREs the last page is read-only. -/
def requestsT : List Request :=
  [.load .half 0x80001008, .store .byte 0x80000123 0x5A, .store .word 0x80001008 7]
def atRequests (n stands : Nat) : State :=
  { withWords setupT [(0x20000, 0x30), (0x21008, 0x00000BEE)] with inputs := [.proceed { requests := requestsT.take n, stands := stands }] }

/-- Two requests of one instruction complete; its pc moves once. -/
theorem test_step_makes_every_request_of_an_instruction :
    (next? (step (atRequests 2 0))).map (fun t => (t.results, t.mem.read 0x20123, t.pc, t.inputs)) =
      some ([0xBEE], some 0x5A, 0x80000004, []) := by decide

/-- The third request raises TLB-Modification: as many of the others stand as CORE says. -/
theorem test_step_keeps_the_requests_that_stand :
    (next? (step (atRequests 3 0))).map (fun t => (t.results, t.mem.read 0x20123, t.trap.map (·.exc))) =
      some ([], none, some .tlbModification) ∧
    (next? (step (atRequests 3 1))).map (fun t => (t.results, t.mem.read 0x20123)) = some ([0xBEE], none) ∧
    (next? (step (atRequests 3 2))).map (fun t => (t.results, t.mem.read 0x20123, t.pc)) =
      some ([0xBEE], some 0x5A, 0x80000000) := by decide

/-- TLBWI at the pc, its condition failing for CORE. -/
def atFailedTlbwi : State := { kernelT.withFetchWord 64 0x01 with inputs := [.proceed { holds := false }] }

theorem test_step_skips_an_instruction_whose_condition_fails :
    (next? (step atFailedTlbwi)).map (fun t => (t.tlb, t.pc, t.inputs)) = some (tlbT, 0x7004, []) := by decide

/-! ## Witnesses: the hypotheses of each statement hold together -/

theorem noMatch_of_all {s : State} {v : BitVec 20} {a : BitVec 7} (h : s.tlb.all (fun e => !tlbMatch e v a) = true) (i : Nat) (e : Pte)
    (he : s.tlb[i]? = some e) : ¬ Matches e v a := by
  intro hM
  have := List.all_eq_true.1 h e (List.mem_of_getElem? he)
  rw [tlbMatch_iff.2 hM] at this
  cases this

theorem oneMatch_of_all {s : State} {v : BitVec 20} {a : BitVec 7} {x : Pte}
    (h : s.tlb.all (fun e => !tlbMatch e v a || decide (e = x)) = true) (i : Nat) (e : Pte) (he : s.tlb[i]? = some e)
    (hM : Matches e v a) : e = x := by
  have := List.all_eq_true.1 h e (List.mem_of_getElem? he)
  rw [tlbMatch_iff.2 hM] at this
  simpa using this

theorem witness_ResetEntersPhysicalModeWithRandomAtTop :
    ({ Config.standard with tlbSize := 4 }).wf = true ∧ ({ Config.standard with tlbSize := 64 }).wf = true := by decide

theorem witness_ResetLosesTheFormerState : setupT.draws = setupF.draws ∧ setupT ≠ setupF := by decide

theorem witness_ResetMeetsTheInvariant : Config.standard.wf = true := by decide

theorem witness_StepKeepsTheParameters : ∃ t, step atLoad = .next t ∧ atLoad.TlbSizeOk := by
  obtain ⟨t, h⟩ := next_of_isSome (o := step atLoad) (by decide)
  exact ⟨t, h, by decide⟩

theorem witness_StepKeepsTheInvariant : ∃ t, atLoad.Inv ∧ step atLoad = .next t := by
  obtain ⟨t, h⟩ := next_of_isSome (o := step atLoad) (by decide)
  exact ⟨t, by decide, h⟩

theorem witness_TlbwiWritesTheIndexedSlot :
    kernelT.mode = .privileged ∧ kernelT.index.tlbIndex.toNat < kernelT.tlbSize ∧
    ({ kernelT with index := ⟨7, false⟩ }).index.tlbIndex.toNat < kernelT.tlbSize := by decide

theorem witness_TlbwrWritesOneUnsafeSlot : kernelT.mode = .privileged ∧ kernelT.TlbSizeOk ∧ kernelT.RandomOk := by decide

theorem witness_TlbrLoadsTheIndexedSlot : kernelT.mode = .privileged ∧ kernelT.index.tlbIndex.toNat < kernelT.tlbSize := by decide

theorem witness_AnIndexThatIsNoSlotIsRefused :
    ({ kernelT with index := ⟨8, false⟩ } : State).mode = .privileged ∧
    kernelT.tlbSize ≤ ({ kernelT with index := ⟨8, false⟩ } : State).index.tlbIndex.toNat := by decide

/-- Each clause: a slot matches (set-up T with EntryHi = (0x80000, 5)), and none does (EntryHi = (0x80003, 5)). -/
theorem witness_TlbpReportsAMatchingSlot :
    kernelT.mode = .privileged ∧ kernelT.TlbSizeOk ∧
    (∃ (i : Nat) (e : Pte), kernelT.tlb[i]? = some e ∧ Matches e 0x80000 5) ∧
    (∀ (i : Nat) (e : Pte), kernelT.tlb[i]? = some e → ¬ Matches e 0x80003 5) :=
  ⟨by decide, by decide, ⟨1, pte 0x80000 5 0x00020 true true false, rfl, by decide⟩, noMatch_of_all (by decide)⟩

theorem witness_TlbclrZeroesTheUnsafeSlots : kernelT.mode = .privileged ∧ 7 < kernelT.tlbSize := by decide

theorem witness_Cp15ReadGivesTheRegisterFields :
    kernelT.mode = .privileged ∧ kernelT.cfg.wf = true ∧ kernelT.TlbSizeOk ∧ kernelT.RandomOk := by decide

theorem witness_Cp15WriteSetsTheRegisterFields :
    kernelT.mode = .privileged ∧ ({ kernelT with cfg := { cfgT with volatility := .stable } } : State).cfg.volatility = .stable := by
  decide

theorem witness_UserModeGivesCp15InstructionsNoMeaning : setupT.mode = .user := by decide

theorem witness_Cp15InstructionsTouchNoMemory : ∃ t, exec .tlbclr kernelT = .next t ∧ ∀ reg, Instr.tlbclr ≠ .cp15read reg :=
  ⟨_, rfl, fun _ => by simp⟩

theorem witness_RegistersHaveNoOtherWriters : ∃ t, exec (.cp15read .r1) kernelT = .next t ∧ (∀ w, Instr.cp15read .r1 ≠ .cp15write .r1 w) :=
  ⟨_, rfl, fun _ => by simp⟩

/-- TLBWI, placed at the pc, with Index.TLBIndex = 0. -/
def atTlbwi : State := ({ kernelT with index := ⟨0, false⟩ }).withFetchWord 64 0x01

theorem witness_OnlyTlbwiWritesTheSafeSlot :
    ∃ t, atTlbwi.TlbSizeOk ∧ atTlbwi.RandomOk ∧ step atTlbwi = .next t ∧ t.tlb[0]? ≠ atTlbwi.tlb[0]? :=
  ⟨_, by decide, by decide, rfl, by decide⟩

theorem witness_RandomCountsDownAndWraps :
    (4 ≤ 4 ∧ 4 ≤ 64 ∧ 1 ≤ (1 : BitVec 6).toNat ∧ (1 : BitVec 6).toNat ≤ 4 - 1) ∧
    (4 ≤ 64 ∧ 64 ≤ 64 ∧ 1 ≤ (63 : BitVec 6).toNat ∧ (63 : BitVec 6).toNat ≤ 64 - 1) := by decide

theorem witness_RandomReachesEveryUnsafeSlot :
    4 ≤ 8 ∧ 8 ≤ 64 ∧ 1 ≤ (1 : BitVec 6).toNat ∧ (1 : BitVec 6).toNat ≤ 8 - 1 ∧ 1 ≤ (7 : BitVec 6).toNat ∧ (7 : BitVec 6).toNat ≤ 8 - 1 := by
  decide

/-- The clauses meet at 0x8000: the byte below it is reserved, it is not. -/
theorem witness_UserModeFaultsBelowTheReservedTop :
    setupT.mode = .user ∧ (0x7FFF : Word).toNat < 0x8000 ∧ ({ setupT with m := false } : State).m = false ∧
    0x8000 ≤ (0x8000 : Word).toNat := by decide

theorem witness_UserModeFaultsOnKseg0 : setupT.m = true ∧ setupT.mode = .user ∧ (0x7FFFFFFF : Word).toNat < 0x80000000 := by decide

theorem witness_UntranslatedAddressesAreDirect :
    (kernelT.m = false ∧ kernelT.mode = .privileged) ∧
    (({ setupT with m := false } : State).m = false ∧ 0x8000 ≤ (0x8000 : Word).toNat) ∧
    ((0x7FFF : Word).toNat < 0x8000 ∧ ({ setupT with cpsr := 0 } : State).mode = .privileged) := by decide

theorem witness_NoMatchingSlotRaisesTlbMiss :
    setupT.m = true ∧ 0x8000 ≤ (0x80003000 : Word).toNat ∧ 0x80000000 ≤ (0x80003000 : Word).toNat ∧
    ∀ (i : Nat) (e : Pte), setupT.tlb[i]? = some e → ¬ Matches e ((0x80003000 : Word).extractLsb' 12 20) setupT.r2.hi.asid :=
  ⟨rfl, by decide, by decide, noMatch_of_all (by decide)⟩

/-- The clauses: V = 0 (T7), a write with D = 0 (T5), a translation (T1). -/
theorem witness_TheMatchingSlotDecidesTheAccess :
    setupT.m = true ∧ 0x80000000 ≤ (0x80001FFC : Word).toNat ∧
    setupT.tlb[2]? = some (pte 0x80001 5 0x00021 false true false) ∧
    Matches (pte 0x80001 5 0x00021 false true false) ((0x80001FFC : Word).extractLsb' 12 20) setupT.r2.hi.asid ∧
    (∀ (j : Nat) (e' : Pte), setupT.tlb[j]? = some e' → Matches e' ((0x80001FFC : Word).extractLsb' 12 20) setupT.r2.hi.asid →
      e' = pte 0x80001 5 0x00021 false true false) ∧
    (∀ (j : Nat) (e' : Pte), setupT.tlb[j]? = some e' → Matches e' ((0x80002000 : Word).extractLsb' 12 20) setupT.r2.hi.asid →
      e' = pte 0x80002 5 0x00022 true false false) ∧
    (∀ (j : Nat) (e' : Pte), setupT.tlb[j]? = some e' → Matches e' ((0x80000123 : Word).extractLsb' 12 20) setupT.r2.hi.asid →
      e' = pte 0x80000 5 0x00020 true true false) :=
  ⟨rfl, by decide, rfl, by decide, oneMatch_of_all (by decide), oneMatch_of_all (by decide), oneMatch_of_all (by decide)⟩

/-- T28: two slots match. T26: one sends User mode below 0x0000.8000. -/
theorem witness_OneOfSeveralMatchingSlotsDecides :
    setupT.m = true ∧ 0x80000000 ≤ (0x80000000 : Word).toNat ∧
    (∃ (i : Nat) (e : Pte), (tlbT.set 3 (pte 0x80000 5 0x00040 true true false))[i]? = some e ∧
      Matches e ((0x80000000 : Word).extractLsb' 12 20) setupT.r2.hi.asid) ∧
    setupT.mode = .user ∧ (physicalOf (pte 0x80006 5 7 true true false).lo.pfn (offsetOf 0x80006FFF)).toNat < 0x8000 :=
  ⟨rfl, by decide, ⟨3, _, rfl, by decide⟩, by decide, by decide⟩

theorem witness_TranslateChangesOnlyR2 :
    (∃ t, (translateVa setupT 0x80000123 .read).state? = some t) ∧
    (∃ t, (translateVa { setupT with cfg := { cfgT with volatility := .stable } } 0x80002000 .read).state? = some t) ∧
    (∃ t, (translateVa kernelT 0x80000123 .read).state? = some t ∧ kernelT.m = false) :=
  ⟨⟨_, rfl⟩, ⟨_, rfl⟩, ⟨_, rfl, rfl⟩⟩

theorem witness_FetchIsTreatedAsRead : ∃ x t, Kind.read ≠ .write ∧ translateVa setupT 0x80002000 .read = .raised x t :=
  ⟨_, _, by decide, rfl⟩

/-- Set-up T with slot 5, of ASID 6, replaced. -/
theorem witness_OtherAddressSpacesDoNotMatter :
    (tlbT.set 5 (pte 0x80000 6 0x00077 true true false)).filter (fun e => e.lo.g || decide (e.hi.asid = setupT.r2.hi.asid)) =
      setupT.tlb.filter (fun e => e.lo.g || decide (e.hi.asid = setupT.r2.hi.asid)) := by decide

theorem witness_MisalignedAccessesAreRefused :
    (0x80000122 : Word).toNat % Width.word.bytes ≠ 0 ∧ (0x80000123 : Word).toNat % Width.half.bytes ≠ 0 := by decide

/-- P6: RAMTOP is exclusive; the last word below it is RAM. -/
theorem witness_UnidentifiedMemoryRaisesBusError :
    (0x00100000 : Word).toNat % Width.word.bytes = 0 ∧ (∃ j, j < Width.word.bytes ∧ placeOf kernelT.cfg ((0x00100000 : Word).toNat + j) = .nothing) ∧
    translateVa kernelT 0x00100000 .read = .ok 0x00100000 kernelT ∧ translateVa kernelT 0x00100000 .write = .ok 0x00100000 kernelT ∧
    0x7000 ≤ 0xFFFFF ∧ 0xFFFFF < kernelT.cfg.ramTop ∧ kernelT.cfg.ramTop ≤ 0x100000 :=
  ⟨by decide, ⟨0, by decide, by decide⟩, rfl, rfl, by decide, by decide, by decide⟩

/-- A platform of ROM in the first frame and device registers in the second. -/
def onBus : State := { kernelT with cfg := { cfgT with bus := some [⟨0, 0x1000, .rom⟩, ⟨0x1000, 0x1000, .device⟩] }, mem := [(0xFFF, 7)] }

theorem witness_AccessesBelowRamFollowThePlatform :
    (kernelT.cfg.bus = none ∧ translateVa kernelT 0x6FFC .read = .ok 0x6FFC kernelT ∧ (0x6FFC : Word).toNat + Width.word.bytes ≤ 0x7000) ∧
    (onBus.cfg.bus ≠ none ∧ (∀ j, j < 4 → placeOf onBus.cfg (0x1000 + j) ≠ .nothing) ∧ placeOf onBus.cfg 0x1000 = .device ∧
      translateVa onBus 0x1000 .write = .ok 0x1000 onBus) ∧
    ((∀ j, j < 1 → placeOf onBus.cfg (0xFFF + j) = .rom) ∧ translateVa onBus 0xFFF .read = .ok 0xFFF onBus ∧
      onBus.mem.readBytes 0xFFF 1 = some [7]) ∧
    (∀ r, r ∈ [(⟨0, 0x1000, .rom⟩ : BusRange), ⟨0x1000, 0x1000, .device⟩] → ¬ (r.base ≤ 0x2000 ∧ 0x2000 < r.base + r.size)) ∧
    onBus.cfg.wf = true :=
  ⟨⟨rfl, rfl, by decide⟩, ⟨by decide, by decide, by decide, rfl⟩, ⟨by decide, rfl, rfl⟩, by decide, by decide⟩

theorem witness_ReadReturnsTheLastWrite :
    (∃ t, physWrite kernelT 0xFFFFC .word 0x11223344 = .ok t) ∧ 0xFFFF8 + Width.word.bytes ≤ 0xFFFFC :=
  ⟨⟨_, rfl⟩, by decide⟩

/-- The first and the last word of RAM. -/
theorem witness_RamAccessesComplete :
    (0x7000 : Word).toNat % Width.word.bytes = 0 ∧ 0x7000 ≤ (0x7000 : Word).toNat ∧
    (0xFFFFC : Word).toNat + Width.word.bytes ≤ kernelT.cfg.ramTop ∧
    translateVa kernelT 0xFFFFC .write = .ok 0xFFFFC kernelT ∧ translateVa kernelT 0x7000 .write = .ok 0x7000 kernelT ∧
    translateVa setupF 0x00009040 .read ≠ .ok 0x9040 setupF ∧
    translateVa { setupF with m := false } 0x9040 .read = .ok 0x9040 { setupF with m := false } ∧
    (∀ a, 0x9040 ≤ a → a < 0x9044 → setupF.mem.read a ≠ none) := by
  refine ⟨by decide, by decide, by decide, rfl, rfl, by decide, rfl, ?_⟩
  intro a h1 h2
  have : a = 0x9040 ∨ a = 0x9041 ∨ a = 0x9042 ∨ a = 0x9043 := by omega
  rcases this with rfl | rfl | rfl | rfl <;> decide

theorem witness_WriteChangesItsBytesAlone : ∃ t, memWrite setupT 0x80000120 .word 0xCAFEF00D = .ok () t := ⟨_, rfl⟩

theorem witness_ReadGivesTheTranslatedBytes :
    ∃ t, memRead { atLoad with cpsr := 0 } 0x80001008 .word .read = .ok 0xBEE t := ⟨_, rfl⟩

/-- T7 and E3: the write through D = 0 raises TLB-Modification although the frame is beyond RAMTOP. -/
theorem witness_AccessesRaiseWhatTranslateRaises :
    (0x80002000 : Word).toNat % Width.word.bytes = 0 ∧ (∃ x s1, translateVa setupT 0x80002000 .read = .raised x s1) ∧
    ∃ x s1, translateVa { setupT with tlb := tlbT.set 6 (pte 0x80004 5 0x00200 false true false) } 0x80004010 .write = .raised x s1 ∧
      x.exc = .tlbModification :=
  ⟨by decide, ⟨_, _, rfl⟩, ⟨_, _, rfl, rfl⟩⟩

/-- Two pages of one frame: 0x80000 and 0x80006. -/
theorem witness_AliasesAreTheSameMemory :
    ∃ s1 t t1, translateVa { setupT with tlb := tlbT.set 3 (pte 0x80006 5 0x00020 true true false) } 0x80000120 .write = .ok 0x00020120 s1 ∧
      memWrite { setupT with tlb := tlbT.set 3 (pte 0x80006 5 0x00020 true true false) } 0x80000120 .word 0xCAFEF00D = .ok () t ∧
      (0x80006120 : Word).toNat % Width.word.bytes = 0 ∧ translateVa t 0x80006120 .read = .ok 0x00020120 t1 :=
  ⟨_, _, _, rfl, rfl, by decide, rfl⟩

theorem witness_ExceptionsArePrecise :
    (∃ x t, memRead setupT 0x80002000 .word .read = .raised x t) ∧ (∃ x t, memWrite setupT 0x80001FFC .word 1 = .raised x t) ∧
    (∃ u v x t, Makes setupT [.store .byte 0x80000123 0x5A, .store .byte 0x80000124 0x5B] u ∧
      makeRequest (.store .word 0x80001008 7) u = .raised x t ∧ Makes setupT [.store .byte 0x80000123 0x5A] v) :=
  ⟨⟨_, _, rfl⟩, ⟨_, _, rfl⟩, ⟨_, _, _, _, ⟨_, rfl, _, rfl, rfl⟩, rfl, ⟨_, rfl, rfl⟩⟩⟩

theorem witness_StepRunsTheDecodedInstruction :
    ∃ s1, atTlbwi.Executes ∧ (instrRun atTlbwi.inputs).holds = true ∧ fetch atTlbwi = .ok 0x01 s1 ∧
      decode atTlbwi.cfg.decode 0x01 atTlbwi.source atTlbwi.address = .term (.instr .tlbwi) :=
  ⟨_, ⟨rfl, rfl⟩, rfl, rfl, rfl⟩

/-- The clauses: LOAD, STORE, two requests of one instruction, none, a condition that fails. -/
theorem witness_StepRunsLoadsAndStores :
    (atLoad.Executes ∧ ∃ s1 s2, fetch atLoad = .ok 0x41 s1 ∧
      decode atLoad.cfg.decode 0x41 atLoad.source atLoad.address = .term (.load .word 0x80001008) ∧
      memRead s1 0x80001008 .word .read = .ok 0xBEE s2) ∧
    (atSuppliedStore.Executes ∧ ∃ s1 s2, fetch atSuppliedStore = .ok 0x34 s1 ∧
      decode atSuppliedStore.cfg.decode 0x34 atSuppliedStore.source atSuppliedStore.address = .term (.store .word 0x8000 0xCAFEF00D) ∧
      memWrite s1 0x8000 .word 0xCAFEF00D = .ok () s2) ∧
    (atCoreInstruction.Executes ∧ ∃ s1, fetch atCoreInstruction = .ok 0x30 s1 ∧
      decode atCoreInstruction.cfg.decode 0x30 atCoreInstruction.source atCoreInstruction.address = .term .core ∧
      (instrRun atCoreInstruction.inputs).requests = []) ∧
    ((atRequests 2 0).Executes ∧ ∃ s1 s2, fetch (atRequests 2 0) = .ok 0x30 s1 ∧
      decode (atRequests 2 0).cfg.decode 0x30 (atRequests 2 0).source (atRequests 2 0).address = .term .core ∧
      Makes s1 (instrRun (atRequests 2 0).inputs).requests s2) ∧
    (atFailedTlbwi.Executes ∧ (instrRun atFailedTlbwi.inputs).holds = false ∧ ∃ s1, fetch atFailedTlbwi = .ok 0x01 s1) :=
  ⟨⟨⟨rfl, rfl⟩, _, _, rfl, rfl, rfl⟩, ⟨⟨rfl, rfl⟩, _, _, rfl, rfl, rfl⟩, ⟨⟨rfl, rfl⟩, _, rfl, rfl, rfl⟩,
    ⟨⟨rfl, rfl⟩, _, _, rfl, rfl, _, rfl, _, rfl, rfl⟩, ⟨rfl, rfl⟩, rfl, _, rfl⟩

/-- The first word of RAM, and a translated pc. -/
theorem witness_PlacedInstructionsRun :
    kernelT.cfg.wf = true ∧ (Instr.cp15write .r10 0x200).wellFormed kernelT.cfg.decode = true ∧
    translateVa kernelT kernelT.pc .fetch = .ok 0x7000 kernelT ∧ kernelT.pc.toNat % kernelT.cfg.insnWidth.bytes = 0 ∧
    (0x7000 : Word).toNat + kernelT.cfg.insnWidth.bytes ≤ kernelT.cfg.ramTop ∧
    ∃ s1, translateVa setupT setupT.pc .fetch = .ok 0x00020000 s1 :=
  ⟨by decide, by decide, rfl, by decide, by decide, ⟨_, rfl⟩⟩

/-- The clauses: the fetch raises BUSERROR at RAMTOP, the STORE raises TLB-Modification (E4); the fetch misses and its refill finds a bad
table (F8), no row (F4), a Segment Table row that nothing has written. -/
theorem witness_AnExceptionEndsTheRun :
    (∃ x s1, StepRaises { kernelT with pc := 0x00100000 } x s1 ∧ x.exc = .busError) ∧
    (∃ x s1, StepRaises atStore x s1 ∧ x.exc = .tlbModification ∧ atStore.NothingStands) ∧
    (∃ x s1, StepRaises (atRequests 3 2) x s1 ∧ x.exc = .tlbModification) ∧
    (∃ x s1, StepRaises (changedF [(0xA000, 0x2B000003)]) x s1 ∧ x.exc = .tlbMiss ∧ refillSearch s1 x.va = .ok .badTable) ∧
    (∃ x s1, StepRaises { setupF with pc := 0x80003000 } x s1 ∧ x.exc = .tlbMiss ∧ refillSearch s1 x.va = .ok .noEntry) ∧
    (∃ x s1, StepRaises { setupF with pc := 0xC0000000 } x s1 ∧ x.exc = .tlbMiss ∧ refill s1 x.va x.kind = .refused .unwrittenMemory) :=
  ⟨⟨_, _, ⟨⟨rfl, rfl⟩, .inl rfl⟩, rfl⟩, ⟨_, _, ⟨⟨rfl, rfl⟩, .inr ⟨0x42, _, _, rfl, rfl, rfl, rfl⟩⟩, rfl, .inl rfl⟩,
    ⟨_, _, ⟨⟨rfl, rfl⟩, .inr ⟨0x30, _, _, rfl, rfl, rfl, rfl⟩⟩, rfl⟩,
    ⟨_, _, ⟨⟨rfl, rfl⟩, .inl rfl⟩, rfl, rfl⟩, ⟨_, _, ⟨⟨rfl, rfl⟩, .inl rfl⟩, rfl, rfl⟩, ⟨_, _, ⟨⟨rfl, rfl⟩, .inl rfl⟩, rfl, rfl⟩⟩

theorem witness_AServedMissIsRetried :
    ∃ x s1 e, StepRaises setupF x s1 ∧ x.exc = .tlbMiss ∧ refillSearch s1 x.va = .ok (.entry e) ∧ setupF.NothingStands :=
  ⟨_, _, _, ⟨⟨rfl, rfl⟩, .inl rfl⟩, rfl, rfl, .inl rfl⟩

/-- Each check at its boundary: F6 (t = 0x8000), F5, F13 (t + 4 just above RAMTOP), F8, F10. -/
theorem witness_BadPageTablesAreReported :
    (TableOf (changedF [(0x9040, 0x8000)]) 0x80001008 0x8000 ∧ (0x8000 : Word).toNat ≤ 0x8000) ∧
    (TableOf (changedF [(0x9040, 0xA102)]) 0x80001008 0xA102 ∧ (0xA102 : Word).toNat % 4 ≠ 0) ∧
    (TableOf (changedF [(0x9040, 0x100000)]) 0x80001008 0x100000 ∧ setupF.cfg.ramTop < (0x100000 : Word).toNat + 4) ∧
    (TableOf (changedF [(0xA000, 0x2B000003)]) 0x80001008 0xA000 ∧
      physRead (changedF [(0xA000, 0x2B000003)]) 0xA000 .word = .ok 0x2B000003 ∧ ((0x2B000003 : Word).extractLsb' 24 8).toNat ≠ 0x2A) ∧
    (TableOf (changedF [(0x9040, 0xFFFF4), (0xFFFF4, 0x2A000001)]) 0x80001008 0xFFFF4 ∧
      physRead (changedF [(0x9040, 0xFFFF4), (0xFFFF4, 0x2A000001)]) 0xFFFF4 .word = .ok 0x2A000001 ∧
      setupF.cfg.ramTop ≤ 0xFFFF4 + (4 + 8 * ((0x2A000001 : Word).extractLsb' 0 20).toNat)) := by decide

theorem setupF_goodTable : GoodTable setupF 0xA000 0x2A000003 := by decide

/-- F1, F3: the row before does not match; the last row, which is not valid, is loaded too. -/
theorem witness_RefillLoadsTheFirstMatchingRow :
    setupF.TlbSizeOk ∧ setupF.RandomOk ∧ TableOf setupF 0x80001008 0xA000 ∧ GoodTable setupF 0xA000 0x2A000003 ∧
    1 < ((0x2A000003 : Word).extractLsb' 0 20).toNat ∧
    (∀ i, i < 1 → ∃ r, RowIs setupF 0xA000 i r ∧ ¬ Matches r ((0x80001008 : Word).extractLsb' 12 20) setupF.r2.hi.asid) ∧
    RowIs setupF 0xA000 1 (pte 0x80001 5 0x00021 false true false) ∧
    Matches (pte 0x80001 5 0x00021 false true false) ((0x80001008 : Word).extractLsb' 12 20) setupF.r2.hi.asid ∧
    RowIs setupF 0xA000 2 (pte 0x80002 5 0x00022 true false false) := by
  refine ⟨by decide, by decide, by decide, setupF_goodTable, by decide, ?_, ⟨0x800010A0, 0x00021200, by decide, by decide, by decide⟩,
    by decide, ⟨0x800020A0, 0x00022400, by decide, by decide, by decide⟩⟩
  intro i hi
  have : i = 0 := by omega
  subst this
  exact ⟨pte 0x80000 5 0x00020 true true false, ⟨0x800000A0, 0x00020600, by decide, by decide, by decide⟩, by decide⟩

/-- F4, and a table of no rows. -/
theorem witness_RefillWithoutAMatchRaisesPteMiss :
    TableOf setupF 0x80003000 0xA000 ∧ GoodTable setupF 0xA000 0x2A000003 ∧
    (∀ i, i < ((0x2A000003 : Word).extractLsb' 0 20).toNat →
      ∃ r, RowIs setupF 0xA000 i r ∧ ¬ Matches r ((0x80003000 : Word).extractLsb' 12 20) setupF.r2.hi.asid) ∧
    (TableOf (changedF [(0xA000, 0x2A000000)]) 0x80003000 0xA000 ∧ GoodTable (changedF [(0xA000, 0x2A000000)]) 0xA000 0x2A000000 ∧
      ((0x2A000000 : Word).extractLsb' 0 20).toNat = 0) := by
  refine ⟨by decide, setupF_goodTable, ?_, by decide, by decide, by decide⟩
  intro i hi
  have h3 : ((0x2A000003 : Word).extractLsb' 0 20).toNat = 3 := by decide
  have : i = 0 ∨ i = 1 ∨ i = 2 := by omega
  rcases this with rfl | rfl | rfl
  · exact ⟨pte 0x80000 5 0x00020 true true false, ⟨0x800000A0, 0x00020600, by decide, by decide, by decide⟩, by decide⟩
  · exact ⟨pte 0x80001 5 0x00021 false true false, ⟨0x800010A0, 0x00021200, by decide, by decide, by decide⟩, by decide⟩
  · exact ⟨pte 0x80002 5 0x00022 true false false, ⟨0x800020A0, 0x00022400, by decide, by decide, by decide⟩, by decide⟩

/-- A list of all 384 addresses, its last one that of ASID 127 and Useg3; F19: the row stands at RAMTOP. -/
theorem witness_SegmentTableOutsideMemoryIsRefused :
    (List.range 384)[3 * (127 : BitVec 7).toNat + (if (0xC0000000 : Word).toNat < 0x80000000 then 0 else
      if (0xC0000000 : Word).toNat < 0xC0000000 then 1 else 2)]? = some 383 ∧
    ∃ j, j < 4 ∧ placeOf { cfgT with segTable := .rows (0x100000 - 64) }
      (segTableAddress (.rows (0x100000 - 64)) setupF.r2.hi.asid (segmentOf 0x80001008) + j) = .nothing :=
  ⟨by simp, 0, by decide, by decide⟩

theorem witness_RefillLeavesTheRest :
    (∃ t, refill setupF 0x80001008 .read = .ok () t) ∧ (∃ x t, refill setupF 0x80003000 .read = .raised x t) :=
  ⟨⟨_, rfl⟩, ⟨_, _, rfl⟩⟩

/-- F2: the refill loads a row with D = 0, and the retried write raises TLB-Modification. -/
theorem witness_ARefilledAccessDoesNotMiss :
    setupF.TlbSizeOk ∧ setupF.RandomOk ∧
    ∃ t, refill setupF 0x80001008 .write = .ok () t ∧ ∃ x u, translateVa t 0x80001008 .write = .raised x u ∧ x.exc = .tlbModification := by
  let e : Pte := pte 0x80001 5 0x00021 false true false
  have ho : setupF.observeRandom.RandomOk := observeRandom_randomOk (by decide) (by decide)
  have hslot : (setupF.loadEntry e).tlb[setupF.observeRandom.random.toNat]? = some e := by
    rw [State.loadEntry_tlb, List.getElem?_set_self]
    exact ho.2
  have hone : ∀ (i : Nat) (x : Pte), (setupF.loadEntry e).tlb[i]? = some x → tlbMatch x 0x80001 5 = true → x = e := by
    intro i x hx hM
    rw [State.loadEntry_tlb] at hx
    rcases List.mem_or_eq_of_mem_set (List.mem_of_getElem? hx) with hm | rfl
    · have hall : setupF.tlb.all (fun y => !tlbMatch y 0x80001 5) = true := by decide
      have := List.all_eq_true.1 hall x hm
      rw [hM] at this
      cases this
    · rfl
  refine ⟨by decide, by decide, setupF.loadEntry e, rfl, ?_⟩
  rw [translate_virtual .write (show (setupF.loadEntry e).m = true from rfl) (by decide)]
  rcases translateVirtual_cases (setupF.loadEntry e) 0x80001008 .write with ⟨_, h2, _⟩ | ⟨_, h2, _⟩ | ⟨_, i, x, hx, hM, h3⟩
  · exact absurd h2 (by decide)
  · have := matching_eq_nil.1 h2 _ _ hslot
    exact absurd this (by decide)
  · have hxe : x = e := hone i x hx hM
    subst hxe
    rw [h3]
    exact ⟨_, _, rfl, rfl⟩

theorem witness_CoreMovesChangeOneRegister :
    ({ setupT with inputs := [.move (.cpsr 0), .proceed {}, .move (.pc 0x8000)] } : State).trap = none ∧
    ({ setupT with inputs := [.move (.cpsr 0), .proceed {}, .move (.pc 0x8000)] } : State).inputs =
      .move (.cpsr 0) :: [.proceed {}, .move (.pc 0x8000)] := by decide

theorem witness_DecodeOfEncodeIsTheInstruction :
    cfgT.wf = true ∧ ({ cfgT with byteOrder := .big }).wf = true ∧ Instr.tlbwi.wellFormed cfgT.decode = true ∧
    (Instr.cp15read .r8).wellFormed cfgT.decode = true ∧ (Instr.cp15write .entryHi 0xFFFFFFFF).wellFormed cfgT.decode = true := by decide

theorem witness_UnknownWordsAreRefused :
    (∀ r, r ∈ cfgT.decode → r.word ≠ 0x26) ∧
    ∃ s1, fetch (kernelT.withFetchWord 64 0x26) = .ok 0x26 s1 ∧ (kernelT.withFetchWord 64 0x26).Executes :=
  ⟨by decide, _, rfl, rfl, rfl⟩

theorem witness_RegisterWordsReadBack :
    ∃ s1 s2, kernelT.cfg.wf = true ∧ exec (.cp15write .entryLo 0x00020600) kernelT = .next s1 ∧ exec (.cp15read .entryLo) s1 = .next s2 :=
  ⟨_, _, by decide, rfl, rfl⟩

/-- I1, then a read and a write of the page it installs. -/
theorem witness_AnInstalledEntryTranslates :
    ∃ t, exec .tlbwi { kernelT with m := true } = .next t ∧ 0x8000 ≤ (0x80007FFF : Word).toNat ∧
      (0x80007FFF : Word).extractLsb' 12 20 = kernelT.r2.hi.vpn20 ∧ kernelT.r2.lo.v = true ∧ kernelT.r2.lo.d = true ∧
      ∀ (j : Nat) (e : Pte), j ≠ kernelT.index.tlbIndex.toNat → kernelT.tlb[j]? = some e → ¬ Matches e kernelT.r2.hi.vpn20 kernelT.r2.hi.asid :=
  ⟨_, rfl, by decide, by decide, rfl, rfl, fun j e _ => noMatch_of_all (by decide) j e⟩

/-- I18, in Privileged mode. -/
theorem witness_AfterTlbclrOnlyTheSafeSlotTranslates :
    ∃ t, exec .tlbclr { kernelT with m := true } = .next t ∧ 0x8000 ≤ (0x80000123 : Word).toNat ∧
      ∀ e, kernelT.tlb[0]? = some e → ¬ Matches e ((0x80000123 : Word).extractLsb' 12 20) kernelT.r2.hi.asid :=
  ⟨_, rfl, by decide, fun e he => noMatch_of_all (s := { kernelT with tlb := [kernelPage] }) (by decide) 0 e he⟩

/-- A User-mode STORE that completes. -/
def userStore : State := withWords { setupT with m := false, pc := 0x8004 } [(0x8004, 0x43)]

theorem witness_UserModeNeverWritesReservedMemory : userStore.mode = .user ∧ (∃ t, step userStore = .next t) ∧ 0x7FFF < 0x8000 :=
  ⟨by decide, ⟨_, rfl⟩, by decide⟩

/-- A step that executes, and a move of CORE. -/
theorem witness_UserModeLeavesTheTranslationState :
    setupF.TlbSizeOk ∧ setupF.RandomOk ∧ setupF.mode = .user ∧ setupF.Executes ∧ (∃ t, step setupF = .next t) ∧
    ∃ t, step { setupF with inputs := [.move (.cpsr 0)] } = .next t :=
  ⟨by decide, by decide, by decide, by decide, next_of_isSome (by decide), next_of_isSome (by decide)⟩

end Sys2Proof.Tests
end

/-! PROOF. Reset, the parameters, the invariant of the machine, the frames of one access, and the step of LOAD, STORE and CORE. -/

namespace Sys2Proof.Machine

/-! ## The invariant: what it depends on, and what keeps it -/

theorem OnlyR2.inv {s t : State} (h : OnlyR2 s t) (hs : s.Inv) : t.Inv := by
  rw [h.1]
  exact hs

theorem OnlyR2.memOk {s t : State} (h : OnlyR2 s t) (hs : s.MemOk) : t.MemOk := by
  rw [h.1]
  exact hs

/-- The invariant speaks of memory and of fields that requests leave alone. -/
theorem OnlyRequests.inv {s t : State} (h : OnlyRequests s t) (hs : s.Inv) (hm : t.MemOk) : t.Inv := by
  obtain ⟨hcfg, hsize, hrandom, -⟩ := hs
  rw [State.Inv, State.TlbSizeOk, State.RandomOk, h.cfg, h.tlbSize, h.random]
  exact ⟨hcfg, hsize, hrandom, hm⟩

/-- A request writes memory in RAM alone, so memory stays canonical and below RAMTOP (rules R43, R46). -/
theorem makeRequest_memOk {r : Request} {s t : State} (hs : s.MemOk) (h : makeRequest r s = .ok () t) : t.MemOk := by
  rcases makeRequest_ok h with ⟨n, va, k, w, u, hread, rfl⟩ | ⟨n, va, v, -, hwrite⟩
  · have hu : OnlyR2 s u := memRead_onlyR2 (by rw [hread]; rfl)
    exact hu.memOk hs
  · obtain ⟨-, pa, u, htrans, hphys⟩ := memWrite_ok hwrite
    have hu : OnlyR2 s u := translate_onlyR2 (by rw [htrans]; rfl)
    exact physWrite_memOk (hu.memOk hs) hphys

/-- `State.MemOk` as a property of the memory alone: what each request of an instruction finds and leaves. -/
def Memory.OkBelow (top : Nat) (m : Memory) : Prop := m.wf = true ∧ m.all (fun c => decide (c.1 < top)) = true

theorem State.memOk_iff {s : State} {c : Config} (h : s.cfg = c) : s.MemOk ↔ s.mem.OkBelow c.ramTop := by
  subst h
  exact Iff.rfl

/-- Each request of an instruction finds memory as `makeRequest_memOk` wants it, and so does what comes after them all. -/
theorem requestsOf_memOk {tm : Term} {s t : State} (hs : s.MemOk) (h : (requestsOf tm s).state? = some t) : t.MemOk := by
  refine (State.memOk_iff (requestsOf_onlyRequests h).cfg).2 (requestsOf_mem ?_ hs h)
  intro r u v hu hm hr
  have hv := hu.trans (makeRequest_onlyRequests hr)
  exact (State.memOk_iff hv.cfg).1 (makeRequest_memOk ((State.memOk_iff hu.cfg).2 hm) hr)

theorem requestsOf_inv {tm : Term} {s t : State} (hs : s.Inv) (h : (requestsOf tm s).state? = some t) : t.Inv := by
  refine (requestsOf_onlyRequests h).inv hs ?_
  obtain ⟨-, -, -, hmem⟩ := hs
  exact requestsOf_memOk hmem h

/-- The end of an instruction moves the pc and goes on in what CORE does: nothing the invariant speaks of. -/
theorem advance_inv {s : State} (hs : s.Inv) : s.advance.Inv := hs

theorem exec_inv {i : Instr} {s t : State} (hs : s.Inv) (h : exec i s = .next t) : t.Inv := by
  obtain ⟨-, hcfg, -, -, hmem, -, -, -, -, hsize⟩ := exec_frame h
  obtain ⟨hwf, hsizeOk, hrandom, hmemOk⟩ := hs
  have hrandom' := exec_randomOk hsizeOk hrandom h
  rw [State.Inv, State.TlbSizeOk, State.MemOk, hcfg, hsize, hmem]
  exact ⟨hwf, hsizeOk, hrandom', hmemOk⟩

/-- The refill observes Random and writes one slot: both stay in their range (rules R4, R19). -/
theorem loadEntry_inv {s : State} (e : Pte) (hs : s.Inv) : (s.loadEntry e).Inv := by
  obtain ⟨hwf, hsizeOk, hrandom, hmemOk⟩ := hs
  have hrandom' := observeRandom_randomOk hsizeOk hrandom
  rw [State.Inv, State.TlbSizeOk, State.RandomOk, State.loadEntry_tlbSize]
  exact ⟨hwf, hsizeOk, hrandom', hmemOk⟩

theorem deliver_inv {insn : Word} {x : Trap} {s t : State} (hs : s.Inv) (h : deliver insn x s = .next t) : t.Inv := by
  rcases deliver_next h with ⟨-, e, -, rfl⟩ | ⟨y, -, rfl⟩
  · exact loadEntry_inv e hs
  · exact hs

theorem StepRaises.inv {s s1 : State} {x : Trap} (h : StepRaises s x s1) (hs : s.Inv) : s1.Inv := by
  obtain ⟨-, hfetch | ⟨w, s0, tm, hfetch, -, -, hraise⟩⟩ := h
  · have h1 : OnlyR2 s s1 := memRead_onlyR2 (by rw [← fetch, hfetch]; rfl)
    exact h1.inv hs
  · exact requestsOf_inv ((fetch_onlyR2 hfetch).inv hs) (by rw [hraise]; rfl)

/-- A move of CORE changes one of CORE's own registers: nothing the invariant speaks of. -/
theorem CoreMove.apply_inv {s : State} (x : CoreMove) (hs : s.Inv) : (x.apply s).Inv := by
  cases x <;> exact hs

/-- Settles O5: each of the things a step can do keeps the invariant, an instruction after the fetch that precedes it. -/
theorem stepKeepsTheInvariant : Obligations.StepKeepsTheInvariant := by
  intro s t hs h
  rcases step_cases h with ⟨x, xs, -, -, rfl⟩ | ⟨x, s1, hraise, hdeliver⟩ | ⟨-, w, s1, tm, hfetch, -, hrun⟩
  · exact x.apply_inv hs
  · exact deliver_inv (hraise.inv hs) hdeliver
  · have hs1 := (fetch_onlyR2 hfetch).inv hs
    rcases hrun with ⟨-, i, u, -, hexec, rfl⟩ | ⟨-, s2, hreq, rfl⟩ | ⟨-, rfl⟩
    · exact advance_inv (exec_inv hs1 hexec)
    · exact advance_inv (requestsOf_inv hs1 (by rw [hreq]; rfl))
    · exact advance_inv hs1

/-! ## The parameters -/

theorem deliver_parameters {insn : Word} {x : Trap} {s t : State} (h : deliver insn x s = .next t) :
    t.tlbSize = s.tlbSize ∧ t.cfg = s.cfg := by
  rcases deliver_next h with ⟨-, e, -, rfl⟩ | ⟨y, -, rfl⟩
  · simp
  · simp

theorem CoreMove.apply_parameters (s : State) (x : CoreMove) : (x.apply s).tlbSize = s.tlbSize ∧ (x.apply s).cfg = s.cfg := by
  cases x <;> exact ⟨rfl, rfl⟩

/-- No step changes TLBSIZE or another parameter, in any state (rules R4, R25). -/
theorem step_parameters {s t : State} (h : step s = .next t) : t.tlbSize = s.tlbSize ∧ t.cfg = s.cfg := by
  rcases step_cases h with ⟨x, xs, -, -, rfl⟩ | ⟨x, s1, hraise, hdeliver⟩ | ⟨-, w, s1, tm, hfetch, -, hrun⟩
  · exact x.apply_parameters _
  · obtain ⟨hreq, -⟩ := hraise.deliver
    obtain ⟨hsize, hcfg⟩ := deliver_parameters hdeliver
    exact ⟨hsize.trans hreq.tlbSize, hcfg.trans hreq.cfg⟩
  · have h1 := fetch_onlyR2 hfetch
    rcases hrun with ⟨-, i, u, -, hexec, rfl⟩ | ⟨-, s2, hreq, rfl⟩ | ⟨-, rfl⟩
    · obtain ⟨-, hcfg, -, -, -, -, -, -, -, hsize⟩ := exec_frame hexec
      exact ⟨hsize.trans h1.tlbSize, hcfg.trans h1.cfg⟩
    · have h2 : OnlyRequests s1 s2 := requestsOf_onlyRequests (by rw [hreq]; rfl)
      exact ⟨h2.tlbSize.trans h1.tlbSize, h2.cfg.trans h1.cfg⟩
    · exact ⟨h1.tlbSize, h1.cfg⟩

/-- Settles O4: a step leaves TLBSIZE as it was, so in its range too. -/
theorem stepKeepsTheParameters : Obligations.StepKeepsTheParameters := by
  intro s t h
  obtain ⟨hsize, hcfg⟩ := step_parameters h
  exact ⟨hsize, fun hok => by rwa [State.TlbSizeOk, hsize], hcfg⟩

/-- Settles O3: Random starts at TLBSIZE - 1, which fits its six bits, and memory starts empty. -/
theorem resetMeetsTheInvariant : Obligations.ResetMeetsTheInvariant := by
  intro c seed hc
  have hsize := Config.wf_tlbSize hc
  have hrandom : (BitVec.ofNat 6 (c.tlbSize - 1)).toNat = c.tlbSize - 1 := by
    rw [BitVec.toNat_ofNat]
    omega
  rw [State.Inv, State.TlbSizeOk, State.RandomOk, State.resetWith_tlbSize, State.resetWith_random, hrandom]
  exact ⟨hc, hsize, by omega, rfl, rfl⟩

/-! ## The frames of one access -/

/-- Settles O36: Translate leaves memory alone, and PhysWrite changes the bytes of the access alone. -/
theorem writeChangesItsBytesAlone : Obligations.WriteChangesItsBytesAlone := by
  intro s t va v n h
  obtain ⟨-, pa, s1, htrans, hphys⟩ := memWrite_ok h
  have h1 : OnlyR2 s s1 := translate_onlyR2 (by rw [htrans]; rfl)
  obtain ⟨-, rfl⟩ := physWrite_ok hphys
  refine ⟨pa, s1, htrans, rfl, fun a ha => ?_⟩
  rw [← h1.mem]
  exact Memory.read_writeBytes_outside _ _ _ _ (by simpa using ha)

/-- Settles O37: PhysRead changes nothing, and reads what was there before Translate. -/
theorem readGivesTheTranslatedBytes : Obligations.ReadGivesTheTranslatedBytes := by
  intro s t va w n k h
  obtain ⟨-, pa, htrans, hphys⟩ := memRead_ok h
  have h1 : OnlyR2 s t := translate_onlyR2 (by rw [htrans]; rfl)
  exact ⟨pa, htrans, by rw [← physRead_congr h1.cfg h1.mem, hphys], h1⟩

/-! ## The step of an instruction that makes requests -/

/-- After requests alone, an instruction that completes moves the pc it was at, and CORE goes on to what it does next. -/
theorem OnlyRequests.advance_eq {s t : State} (h : OnlyRequests s t) :
    t.advance = { t with pc := s.pc + BitVec.ofNat 32 s.cfg.insnWidth.bytes, inputs := afterInstruction s.inputs } := by
  rw [State.advance, h.pc, h.cfg, h.inputs]

/-- An instruction, none of the seven, whose condition holds and whose requests complete after its fetch. -/
theorem step_requests {s s1 s2 : State} {w : Word} {tm : Term} (he : s.Executes) (hfetch : fetch s = .ok w s1)
    (hholds : (instrRun s.inputs).holds = true) (hdecode : decode s.cfg.decode w s.source s.address = .term tm)
    (htm : ∀ i, tm ≠ .instr i) (hreq : requestsOf tm s1 = .ok () s2) :
    step s = .next { s2 with pc := s.pc + BitVec.ofNat 32 s.cfg.insnWidth.bytes, inputs := afterInstruction s.inputs } := by
  have h2 : OnlyRequests s s2 := (fetch_onlyR2 hfetch).requests.trans (requestsOf_onlyRequests (by rw [hreq]; rfl))
  rw [step_executes he, ← h2.advance_eq]
  simp only [runInstruction, hfetch, hdecode, hholds, if_true, execTerm_requests htm, hreq, finish]

/-- An instruction whose condition fails completes after its fetch, without effect. -/
theorem step_condition_fails {s s1 : State} {w : Word} {tm : Term} (he : s.Executes) (hfetch : fetch s = .ok w s1)
    (hholds : (instrRun s.inputs).holds = false) (hdecode : decode s.cfg.decode w s.source s.address = .term tm) :
    step s = .next { s1 with pc := s.pc + BitVec.ofNat 32 s.cfg.insnWidth.bytes, inputs := afterInstruction s.inputs } := by
  rw [step_executes he, ← (fetch_onlyR2 hfetch).requests.advance_eq]
  simp [runInstruction, hfetch, hdecode, hholds]

/-- The requests of an instruction of CORE complete when each of those CORE supplies does, in order. -/
theorem requestsOf_core {s t : State} (h : Makes s (instrRun s.inputs).requests t) : requestsOf .core s = .ok () t :=
  makeRequests_ok.2 h

/-- Settles O42: the requests of each kind of term, and `step_requests`. -/
theorem stepRunsLoadsAndStores : Obligations.StepRunsLoadsAndStores := by
  intro s s1 s2 w va v n he hfetch
  have h1 := fetch_onlyR2 hfetch
  refine ⟨fun hholds => ⟨fun hdecode hread => ?load, fun hdecode hwrite => ?store, fun hdecode hmakes => ?core,
    fun hdecode hnone => ?coreNone⟩, fun tm hholds hdecode => step_condition_fails he hfetch hholds hdecode⟩
  case load =>
    have h2 : OnlyR2 s1 s2 := memRead_onlyR2 (by rw [hread]; rfl)
    have hreq : requestsOf (.load n va) s1 = .ok () (s2.give v) := by rw [requestsOf_load, hread, handed]
    rw [step_requests he hfetch hholds hdecode (by simp) hreq, State.give, h2.results, h1.results]
  case store =>
    exact step_requests he hfetch hholds hdecode (by simp) (by rw [requestsOf_store, hwrite])
  case core =>
    exact step_requests he hfetch hholds hdecode (by simp) (requestsOf_core (by rwa [h1.inputs]))
  case coreNone =>
    exact step_requests he hfetch hholds hdecode (by simp) (requestsOf_core (by rw [h1.inputs, hnone]; rfl))

end Sys2Proof.Machine

/-! PROOF. The writers of each register and of the safe slot, Random, Translate and its frame, a placed instruction, and the moves of
CORE. -/

namespace Sys2Proof.Machine

/-! ## What each register's writers leave -/

/-- A read of a CP15 register moves at most Random before it, and the count of draws with it (rule R106). -/
@[simp] theorem State.observedFor_m (s : State) (reg : Cp15Reg) : (s.observedFor reg).m = s.m := by cases reg <;> rfl
@[simp] theorem State.observedFor_r2 (s : State) (reg : Cp15Reg) : (s.observedFor reg).r2 = s.r2 := by cases reg <;> rfl
@[simp] theorem State.observedFor_index (s : State) (reg : Cp15Reg) : (s.observedFor reg).index = s.index := by cases reg <;> rfl
@[simp] theorem State.observedFor_tlb (s : State) (reg : Cp15Reg) : (s.observedFor reg).tlb = s.tlb := by cases reg <;> rfl

/-- Only a read of R8 observes Random. -/
theorem State.observedFor_of_ne_r8 (s : State) {reg : Cp15Reg} (h : reg ≠ .r8) : s.observedFor reg = s := by
  cases reg with
  | r8 => exact absurd rfl h
  | r1 | entryHi | entryLo | r10 => rfl

/-- A probe changes Index and the count of draws alone (rule R104). -/
theorem State.probed_eq (s : State) (l : List (Pte × Nat)) :
    s.probed l = { s with index := (s.probed l).index, draws := s.draws + 1 } := by cases l <;> rfl

@[simp] theorem State.probed_m (s : State) (l : List (Pte × Nat)) : (s.probed l).m = s.m := by rw [State.probed_eq]
@[simp] theorem State.probed_r2 (s : State) (l : List (Pte × Nat)) : (s.probed l).r2 = s.r2 := by rw [State.probed_eq]
@[simp] theorem State.probed_random (s : State) (l : List (Pte × Nat)) : (s.probed l).random = s.random := by rw [State.probed_eq]
@[simp] theorem State.probed_tlb (s : State) (l : List (Pte × Nat)) : (s.probed l).tlb = s.tlb := by rw [State.probed_eq]

/-- Settles O16: what each instruction that completes writes, and the registers and slots it leaves. -/
theorem registersHaveNoOtherWriters : Obligations.RegistersHaveNoOtherWriters := by
  intro i s t h
  cases i with
  | tlbwi =>
    obtain ⟨-, -, rfl⟩ := execTlbwi_next h
    simp
  | tlbwr =>
    obtain ⟨-, rfl⟩ := execTlbwr_next h
    simp
  | tlbr =>
    obtain ⟨-, e, -, rfl⟩ := execTlbr_next h
    simp
  | tlbp =>
    obtain ⟨-, rfl⟩ := execTlbp_next h
    simp
  | tlbclr =>
    obtain ⟨-, rfl⟩ := execTlbclr_next h
    simp
  | cp15read reg =>
    obtain ⟨-, rfl⟩ := execCp15read_next h
    have hrandom : reg ≠ .r8 → (s.observedFor reg).random = s.random := fun hreg => by rw [s.observedFor_of_ne_r8 hreg]
    simpa using hrandom
  | cp15write reg w =>
    obtain ⟨-, hwrite⟩ := execCp15write_next h
    cases reg with
    | r8 => cases hwrite
    | r1 | entryHi | entryLo | r10 =>
      cases hwrite
      simp

/-! ## The safe slot (rules R20, R178) -/

/-- A slot that Random names is never slot 0 (rule R19). -/
theorem set_observed_slot_zero {s : State} (hn : s.TlbSizeOk) (hr : s.RandomOk) (e : Pte) :
    (s.tlb.set s.observeRandom.random.toNat e)[0]? = s.tlb[0]? := by
  obtain ⟨hlow, -⟩ := observeRandom_randomOk hn hr
  exact List.getElem?_set_ne (by omega)

theorem exec_slot_zero {i : Instr} {s t : State} (hn : s.TlbSizeOk) (hr : s.RandomOk) (h : exec i s = .next t)
    (hne : t.tlb[0]? ≠ s.tlb[0]?) : i = .tlbwi ∧ s.index.tlbIndex = 0 := by
  cases i with
  | tlbwi =>
    obtain ⟨-, -, rfl⟩ := execTlbwi_next h
    refine ⟨rfl, Decidable.byContradiction fun hindex => hne (setSlot_other _ fun hzero => hindex ?_)⟩
    exact BitVec.eq_of_toNat_eq hzero.symm
  | tlbwr =>
    obtain ⟨-, rfl⟩ := execTlbwr_next h
    exact absurd (set_observed_slot_zero hn hr s.r2) hne
  | tlbclr =>
    obtain ⟨-, rfl⟩ := execTlbclr_next h
    exact absurd (clearUnsafe_zero s.tlb) hne
  | tlbr | tlbp | cp15read | cp15write =>
    obtain ⟨-, -, -, -, htlb, -⟩ := registersHaveNoOtherWriters _ _ _ h
    exact absurd (by rw [htlb (by simp) (by simp) (by simp)]) hne

theorem deliver_slot_zero {insn : Word} {x : Trap} {s t : State} (hn : s.TlbSizeOk) (hr : s.RandomOk)
    (h : deliver insn x s = .next t) : t.tlb[0]? = s.tlb[0]? := by
  rcases deliver_next h with ⟨-, e, -, rfl⟩ | ⟨y, -, rfl⟩
  · exact set_observed_slot_zero hn hr e
  · rfl

theorem CoreMove.apply_tlb (s : State) (x : CoreMove) : (x.apply s).tlb = s.tlb := by cases x <;> rfl

theorem OnlyRequests.tlbSizeOk {s t : State} (h : OnlyRequests s t) (hs : s.TlbSizeOk) : t.TlbSizeOk := by
  rwa [State.TlbSizeOk, h.tlbSize]

theorem OnlyRequests.randomOk {s t : State} (h : OnlyRequests s t) (hs : s.RandomOk) : t.RandomOk := by
  rwa [State.RandomOk, h.random, h.tlbSize]

/-- Settles O17: of all that a step can do, TLBWI with Index.TLBIndex = 0 alone changes slot 0. -/
theorem onlyTlbwiWritesTheSafeSlot : Obligations.OnlyTlbwiWritesTheSafeSlot := by
  intro s t hn hr h hne
  rcases step_cases h with ⟨x, xs, -, -, rfl⟩ | ⟨x, s1, hraise, hdeliver⟩ | ⟨-, w, s1, tm, hfetch, hdecode, hrun⟩
  · exact absurd (by rw [CoreMove.apply_tlb]) hne
  · obtain ⟨hreq, -⟩ := hraise.deliver
    have hkeep := deliver_slot_zero (hreq.tlbSizeOk hn) (hreq.randomOk hr) hdeliver
    exact absurd (by rw [hkeep, hreq.tlb]) hne
  · have h1 := fetch_onlyR2 hfetch
    rcases hrun with ⟨hholds, i, u, rfl, hexec, rfl⟩ | ⟨-, s2, hreq, rfl⟩ | ⟨-, rfl⟩
    · obtain ⟨rfl, hindex⟩ := exec_slot_zero (h1.requests.tlbSizeOk hn) (h1.requests.randomOk hr) hexec (by rwa [h1.tlb])
      obtain ⟨hmode, -⟩ := exec_frame hexec
      exact ⟨by rw [← h1.index, hindex], by rw [← h1.mode, hmode], w, s1, hfetch, hdecode, hholds⟩
    · have h2 : OnlyRequests s1 s2 := requestsOf_onlyRequests (by rw [hreq]; rfl)
      exact absurd (by rw [State.advance_tlb, h2.tlb, h1.tlb]) hne
    · exact absurd (by rw [State.advance_tlb, h1.tlb]) hne

/-! ## Random -/

/-- From r, Random is down at 1 after r - 1 cycles, at TLBSIZE - 1 after one more, and then goes down to v (rule R19). -/
theorem randomAfter_through_wrap {n : Nat} {r v : BitVec 6} (hn : 4 ≤ n ∧ n ≤ 64) (hr : 1 ≤ r.toNat) (hv : 1 ≤ v.toNat)
    (hv' : v.toNat ≤ n - 1) : randomAfter n ((r.toNat - 1) + (1 + (n - 1 - v.toNat))) r = v := by
  have hbottom : (randomAfter n (r.toNat - 1) r).toNat = 1 := by
    rw [randomAfter_toNat hn _ _ (by omega)]
    omega
  have htop : (randomTick n (randomAfter n (r.toNat - 1) r)).toNat = n - 1 := by
    rw [randomTick_toNat hn (by omega), if_pos hbottom]
  apply BitVec.eq_of_toNat_eq
  rw [randomAfter_add, randomAfter_add]
  change (randomAfter n _ (randomTick n _)).toNat = _
  rw [randomAfter_toNat hn _ _ (by omega)]
  omega

/-- Settles O18: a cycle as numbers, the range, and the way through the wrap back to the start. -/
theorem randomCountsDownAndWraps : Obligations.RandomCountsDownAndWraps := by
  intro n r hn hn' hr hr'
  refine ⟨randomTick_toNat ⟨hn, hn'⟩ hr, fun k => ?_, ?_⟩
  · obtain ⟨hlow, hhigh⟩ := randomAfter_range ⟨hn, hn'⟩ k (r := r) ⟨hr, by omega⟩
    exact ⟨hlow, by omega⟩
  · have hperiod := randomAfter_through_wrap (r := r) ⟨hn, hn'⟩ hr hr hr'
    rwa [show (r.toNat - 1) + (1 + (n - 1 - r.toNat)) = n - 1 by omega] at hperiod

/-- Settles O19: every value lies on the way through the wrap. -/
theorem randomReachesEveryUnsafeSlot : Obligations.RandomReachesEveryUnsafeSlot :=
  ⟨fun _ _ _ hn hn' hr _ hv hv' => ⟨_, randomAfter_through_wrap ⟨hn, hn'⟩ hr hv hv'⟩, fun _ => rfl⟩

theorem resetWith_random_toNat {c : Config} (hc : c.wf = true) (n : Nat) :
    (State.resetWith c n).random.toNat = c.tlbSize - 1 := by
  have hsize := Config.wf_tlbSize hc
  rw [State.resetWith_random, BitVec.toNat_ofNat]
  omega

/-- Settles O1: Random's start fits its six bits, and the invariant that a reset meets gives the range of an observation. -/
theorem resetEntersPhysicalModeWithRandomAtTop : Obligations.ResetEntersPhysicalModeWithRandomAtTop := by
  intro c s hc
  obtain ⟨-, hsizeOk, hrandomOk, -⟩ := resetMeetsTheInvariant c s.draws hc
  obtain ⟨hlow, hhigh⟩ := observeRandom_randomOk hsizeOk hrandomOk
  rw [State.observeRandom_tlbSize, State.resetWith_tlbSize] at hhigh
  exact ⟨rfl, State.resetWith_tlbSize c _, resetWith_random_toNat hc _, hlow, by rw [State.resetEvent]; omega⟩

/-! ## Translate: the frame -/

theorem translateBy_state {s t : State} {va : Word} {k : Kind} {e : Pte} (h : (translateBy s va k e).state? = some t) : t = s := by
  rcases translateBy_cases s va k e with ⟨-, hr⟩ | ⟨-, -, -, hr⟩ | ⟨-, -, -, -, hr⟩ | ⟨-, -, -, hr⟩
  all_goals rw [hr] at h; cases h
  all_goals rfl

/-- Steps 3 to 10 of Translate change the count of draws alone: what else a Translate changes is the update of rule R16. -/
theorem translateVirtual_state {s t : State} {va : Word} {k : Kind} (h : (translateVirtual s va k).state? = some t) :
    t = { s with draws := t.draws } := by
  rcases translateVirtual_cases s va k with ⟨-, -, hr⟩ | ⟨-, -, hr⟩ | ⟨-, i, e, -, -, hr⟩
  · rw [hr] at h
    cases h
    rfl
  · rw [hr] at h
    cases h
    rfl
  · rw [hr] at h
    rw [translateBy_state h]

/-- Settles O28: by the three ways Translate goes, the translated one through `translateVirtual_state`. -/
theorem translateChangesOnlyR2 : Obligations.TranslateChangesOnlyR2 := by
  intro s t va k h
  obtain ⟨hframe, hasid⟩ := translate_onlyR2 h
  refine ⟨hframe, hasid, ?_⟩
  rcases translate_cases s va k with ⟨-, -, hr⟩ | ⟨-, -, hr⟩ | ⟨hm, hva, hr⟩
  · rw [hr] at h
    cases h
    exact ⟨fun _ => rfl, fun _ => rfl⟩
  · rw [hr] at h
    cases h
    exact ⟨fun _ => rfl, fun _ => rfl⟩
  · rw [hr, Res.state?_mapState] at h
    obtain ⟨u, hu, rfl⟩ := Option.map_eq_some_iff.1 h
    have hdraws := translateVirtual_state hu
    refine ⟨fun hstable => ?_, fun hdirect => ?_⟩
    · have hcfg : u.cfg = s.cfg := by rw [hdraws]
      rw [State.afterTranslate_stable u (by rw [hcfg, hstable]), hdraws]
    · rcases hdirect with hphysical | hlow
      · rw [hm] at hphysical
        cases hphysical
      · omega

/-! ## Translate: the entry that decides -/

theorem not_user_and_kernelSegment {s : State} {va : Word} (h : s.mode = .privileged ∨ 0x80000000 ≤ va.toNat) :
    ¬ (s.mode = .user ∧ kernelSegment va = true) := by
  rintro ⟨huser, hkernel⟩
  rw [kernelSegment_iff] at hkernel
  rcases h with h | h
  · rw [h] at huser
    cases huser
  · omega

/-- Where a slot matches and the mode allows the address, a slot that matches decides (rule R60). -/
theorem translateVirtual_of_match {s : State} {va : Word} (k : Kind) (hmode : s.mode = .privileged ∨ 0x80000000 ≤ va.toNat)
    {j : Nat} {e' : Pte} (hj : s.tlb[j]? = some e') (hmatch : Matches e' (vpn20Of va) s.r2.hi.asid) :
    ∃ (i : Nat) (e : Pte), s.tlb[i]? = some e ∧ Matches e (vpn20Of va) s.r2.hi.asid ∧
      translateVirtual s va k = translateBy { s with draws := s.draws + 1 } va k e := by
  rcases translateVirtual_cases s va k with ⟨huser, hkernel, -⟩ | ⟨-, hnone, -⟩ | ⟨-, i, e, hi, he, hr⟩
  · exact absurd ⟨huser, hkernel⟩ (not_user_and_kernelSegment hmode)
  · have hno := matching_eq_nil.1 hnone j e' hj
    rw [tlbMatch_iff.2 hmatch] at hno
    cases hno
  · exact ⟨i, e, hi, tlbMatch_iff.1 he, hr⟩

theorem translateBy_tlbInvalid (s : State) (va : Word) (k : Kind) {e : Pte} (hv : e.lo.v = false) :
    translateBy s va k e = .raised ⟨.tlbInvalid, va, k, none⟩ s := by simp [translateBy, flagCheck, hv, raise]

theorem translateBy_tlbModification (s : State) (va : Word) {e : Pte} (hv : e.lo.v = true) (hd : e.lo.d = false) :
    translateBy s va .write e = .raised ⟨.tlbModification, va, .write, none⟩ s := by simp [translateBy, flagCheck, hv, hd, raise]

theorem flagCheck_none {lo : EntryLo} {k : Kind} (hv : lo.v = true) (hd : k = .write → lo.d = true) : flagCheck lo k = none := by
  rw [flagCheck, if_neg (by simp [hv]), if_neg (fun ⟨hk, hclean⟩ => by simp [hd hk] at hclean)]

theorem translateBy_ok (s : State) {va : Word} {k : Kind} {e : Pte} (hv : e.lo.v = true) (hd : k = .write → e.lo.d = true)
    (hmode : s.mode = .privileged ∨ 0x8000 ≤ (physicalOf e.lo.pfn (offsetOf va)).toNat) :
    translateBy s va k e = .ok (physicalOf e.lo.pfn (offsetOf va)) s := by
  have hallowed : ¬ (s.mode = .user ∧ reserved (physicalOf e.lo.pfn (offsetOf va)) = true) := by
    rw [reserved_iff]
    rintro ⟨huser, hlow⟩
    rcases hmode with hmode | hmode
    · rw [hmode] at huser
      cases huser
    · omega
  simp only [translateBy, flagCheck_none hv hd, if_neg hallowed]

theorem translateBy_refused (s : State) {va : Word} {k : Kind} {e : Pte} (hv : e.lo.v = true) (hd : k = .write → e.lo.d = true)
    (huser : s.mode = .user) (hlow : (physicalOf e.lo.pfn (offsetOf va)).toNat < 0x8000) :
    translateBy s va k e = .refused .userTranslationIntoReserved := by
  simp only [translateBy, flagCheck_none hv hd, if_pos (And.intro huser ((reserved_iff _).2 hlow))]

/-- Settles O27: the slot that was drawn decides by its flags and its frame, and the update of rule R16 follows. -/
theorem oneOfSeveralMatchingSlotsDecides : Obligations.OneOfSeveralMatchingSlotsDecides := by
  rintro s va k hm hva hmode ⟨j, e', hj, hmatch'⟩
  obtain ⟨i, e, hi, hmatch, hvirtual⟩ := translateVirtual_of_match k hmode hj hmatch'
  have htrans := translate_virtual k hm hva
  rw [hvirtual] at htrans
  refine ⟨i, e, State.afterTranslate { s with draws := s.draws + 1 }, hi, hmatch, (onlyR2_draws s _).afterTranslate,
    fun hv => ?invalid, fun hv hk hd => ?modification, fun hv hd hfree => ?translated, fun hv hd huser hlow => ?reserved⟩
  case invalid =>
    rw [htrans, translateBy_tlbInvalid _ va k hv]
    rfl
  case modification =>
    subst hk
    rw [htrans, translateBy_tlbModification _ va hv hd]
    rfl
  case translated =>
    rw [htrans, translateBy_ok { s with draws := s.draws + 1 } hv hd hfree]
    rfl
  case reserved =>
    rw [htrans, translateBy_refused { s with draws := s.draws + 1 } hv hd huser hlow]
    rfl

/-! ## A placed instruction -/

/-- What placing an instruction changes, whatever memory it leaves: no part of the state that Translate reads. -/
def State.placed (mem : Memory) (src : Word) (s : State) : State := { s with mem := mem, source := src, trap := none, inputs := [] }

theorem placeInstruction_eq_placed (s : State) (insn src : Word) : placeInstruction s insn src =
    s.placed (s.mem.writeBytes (fetchAddress s).toNat (s.cfg.byteOrder.split s.cfg.insnWidth.bytes insn)) src := rfl

theorem afterTranslate_placed (mem : Memory) (src : Word) (s : State) :
    (s.placed mem src).afterTranslate = s.afterTranslate.placed mem src := by
  cases hv : s.cfg.volatility with
  | havocOnTranslate => rw [State.afterTranslate_havoc s hv, State.afterTranslate_havoc (s.placed mem src) hv]; rfl
  | stable => rw [State.afterTranslate_stable s hv, State.afterTranslate_stable (s.placed mem src) hv]

theorem translateBy_placed (mem : Memory) (src : Word) (s : State) (va : Word) (k : Kind) (e : Pte) :
    translateBy (s.placed mem src) va k e = (translateBy s va k e).mapState (State.placed mem src) := by
  rcases translateBy_cases s va k e with ⟨hv, hr⟩ | ⟨hv, rfl, hd, hr⟩ | ⟨hv, hd, huser, hlow, hr⟩ | ⟨hv, hd, hfree, hr⟩
  · rw [hr, translateBy_tlbInvalid _ va k hv]
    rfl
  · rw [hr, translateBy_tlbModification _ va hv hd]
    rfl
  · rw [hr, translateBy_refused (s.placed mem src) hv hd huser hlow]
    rfl
  · rw [hr, translateBy_ok (s.placed mem src) hv hd hfree]
    rfl

theorem translateVirtual_placed (mem : Memory) (src : Word) (s : State) (va : Word) (k : Kind) :
    translateVirtual (s.placed mem src) va k = (translateVirtual s va k).mapState (State.placed mem src) := by
  have hmode : (s.placed mem src).mode = s.mode := rfl
  have hmatching : (s.placed mem src).matching (vpn20Of va) (s.placed mem src).r2.hi.asid =
      s.matching (vpn20Of va) s.r2.hi.asid := rfl
  rw [translateVirtual, translateVirtual, hmode, hmatching]
  split
  · rfl
  · cases s.matching (vpn20Of va) s.r2.hi.asid with
    | nil => rfl
    | cons x xs => exact translateBy_placed mem src { s with draws := s.draws + 1 } va k (pick s.draws x xs).1

theorem mapState_afterTranslate_placed (mem : Memory) (src : Word) (r : Res Word) :
    (r.mapState (State.placed mem src)).mapState State.afterTranslate =
      (r.mapState State.afterTranslate).mapState (State.placed mem src) := by
  cases r with
  | ok pa s => exact congrArg (Res.ok pa) (afterTranslate_placed mem src s)
  | raised x s => exact congrArg (Res.raised x) (afterTranslate_placed mem src s)
  | refused e => rfl

/-- Translate goes the same way after an instruction was placed. -/
theorem translateVa_placed (mem : Memory) (src : Word) (s : State) (va : Word) (k : Kind) :
    translateVa (s.placed mem src) va k = (translateVa s va k).mapState (State.placed mem src) := by
  rcases translate_cases s va k with ⟨huser, hva, hr⟩ | ⟨hmode, hdirect, hr⟩ | ⟨hm, hva, hr⟩
  · rw [hr]
    exact translate_user_reserved k huser hva
  · rw [hr]
    exact translate_direct k hmode hdirect
  · rw [hr, translate_virtual (s := s.placed mem src) k hm hva, translateVirtual_placed, mapState_afterTranslate_placed]

theorem memRead_eq_ok {s t : State} {va pa w : Word} {n : Width} {k : Kind} (ha : va.toNat % n.bytes = 0)
    (htrans : translateVa s va k = .ok pa t) (hphys : physRead t pa.toNat n = .ok w) : memRead s va n k = .ok w t := by
  have haligned : aligned va n = true := decide_eq_true ha
  simp [memRead, haligned, htrans, hphys]

/-- A word in RAM that fits the width reads back from the bytes that were written for it (rules R46, R64). -/
theorem physRead_written {s : State} {m : Memory} {a : Nat} {n : Width} {w : Word}
    (hmem : s.mem = m.writeBytes a (s.cfg.byteOrder.split n.bytes w)) (hlow : ramBase ≤ a) (hhigh : a + n.bytes ≤ s.cfg.ramTop)
    (hw : w.toNat < 2 ^ (8 * n.bytes)) : physRead s a n = .ok w := by
  have hbytes := Memory.readBytes_writeBytes m a (s.cfg.byteOrder.split n.bytes w)
  rw [ByteOrder.length_split, ← hmem] at hbytes
  rw [physRead_eq_ok (busCheck_ram false hlow hhigh) hbytes, ByteOrder.assemble_split_width hw]

/-- The operation of an instruction with the instruction's own source word is the instruction (rules R81, R107). -/
theorem withOperands_op (i : Instr) (addr : Word) : i.op.withOperands i.source addr = .instr i := by
  cases i with
  | tlbwi => exact Laws.OpRoundTrip.tlbwi addr
  | tlbwr => exact Laws.OpRoundTrip.tlbwr addr
  | tlbr => exact Laws.OpRoundTrip.tlbr addr
  | tlbp => exact Laws.OpRoundTrip.tlbp addr
  | tlbclr => exact Laws.OpRoundTrip.tlbclr addr
  | cp15read reg => exact Laws.OpRoundTrip.cp15read reg addr
  | cp15write reg w => exact Laws.OpRoundTrip.cp15write reg w addr

/-- Where the pc translates to an aligned place in RAM, the next step fetches the word that was placed. -/
theorem fetch_placeInstruction {s s1 : State} {pa w : Word} (src : Word) (htrans : translateVa s s.pc .fetch = .ok pa s1)
    (ha : s.pc.toNat % s.cfg.insnWidth.bytes = 0) (hlow : ramBase ≤ pa.toNat)
    (hhigh : pa.toNat + s.cfg.insnWidth.bytes ≤ s.cfg.ramTop) (hw : w.toNat < 2 ^ (8 * s.cfg.insnWidth.bytes)) :
    fetch (placeInstruction s w src) =
      .ok w (s1.placed (s.mem.writeBytes pa.toNat (s.cfg.byteOrder.split s.cfg.insnWidth.bytes w)) src) := by
  have h1 : OnlyR2 s s1 := translate_onlyR2 (by rw [htrans]; rfl)
  have haddress : fetchAddress s = pa := by simp only [fetchAddress, htrans]
  rw [placeInstruction_eq_placed, haddress]
  refine memRead_eq_ok (pa := pa) ha ?_ (physRead_written (m := s.mem) ?_ hlow ?_ hw)
  · exact (translateVa_placed _ src s s.pc .fetch).trans (by rw [htrans]; rfl)
  · change _ = s.mem.writeBytes _ (s1.cfg.byteOrder.split _ w)
    rw [h1.cfg]
    rfl
  · change _ ≤ s1.cfg.ramTop
    rw [h1.cfg]
    exact hhigh

/-- A fetch that is not translated changes nothing (rules R16, R52). -/
theorem fetch_physical {s t : State} {w : Word} (h : fetch s = .ok w t) (hm : s.m = false) : t = s := by
  obtain ⟨-, pa, htrans, -⟩ := memRead_ok h
  obtain ⟨-, -, -, hdirect⟩ := translateChangesOnlyR2 s t s.pc .fetch (by rw [htrans]; rfl)
  exact hdirect (.inl hm)

/-- An instruction of the table whose condition holds is executed after its fetch (rules R72, R80). -/
theorem step_instr {s s1 : State} {w : Word} {i : Instr} (he : s.Executes) (hfetch : fetch s = .ok w s1)
    (hholds : (instrRun s.inputs).holds = true) (hdecode : decode s.cfg.decode w s.source s.address = .term (.instr i)) :
    step s = advanced (exec i s1) := by
  rw [step_executes he]
  simp only [runInstruction, hfetch, hdecode, hholds, if_true, execTerm]

/-- Settles O43: the row that the encoder finds gives the word; the fetch reads it back, and it decodes to the instruction. -/
theorem placedInstructionsRun : Obligations.PlacedInstructionsRun := by
  intro s s1 pa i hc hi htrans ha hlow hhigh
  obtain ⟨r, hr, hop, henc⟩ := encode_row hi
  obtain ⟨-, hfits⟩ := Config.wf_decode hc
  have hfetch := fetch_placeInstruction i.source htrans ha hlow hhigh (hfits r hr)
  have hdecode : decode s.cfg.decode r.word i.source s.address = .term (.instr i) := by
    rw [decode_row hc hr, hop, withOperands_op]
  refine ⟨r.word, i.source, _, henc, hfetch, fetch_onlyR2 hfetch, fetch_physical hfetch, ?_⟩
  exact step_instr ⟨rfl, rfl⟩ hfetch rfl hdecode

/-! ## The moves of CORE -/

/-- Settles O52: a step whose next input is a move makes it, and a move puts its value into one register. -/
theorem coreMovesChangeOneRegister : Obligations.CoreMovesChangeOneRegister := by
  intro s x xs htrap hinputs
  simp only [step, htrap, hinputs]
  cases x <;> rfl

end Sys2Proof.Machine

/-! PROOF. Addresses, Translate and the entry that decides it, memory and the bus, and User mode's reach into memory. -/

namespace Sys2Proof

theorem Width.bytes_pos (n : Width) : 0 < n.bytes := by cases n <;> decide

/-- The place that a kind of range makes. -/
def BusKind.place : BusKind → Machine.Place
  | .rom => .rom
  | .device => .device

end Sys2Proof

namespace Sys2Proof.Machine

/-! ## Addresses (rules R41, R50) -/

/-- Settles O20: both addresses are the same number. -/
theorem physicalAddressIsFrameAndOffset : Obligations.PhysicalAddressIsFrameAndOffset := by
  refine ⟨toNat_physicalOf, fun pa => BitVec.eq_of_toNat_eq ?_⟩
  have hframe : (pa.extractLsb' 12 20).toNat = pa.toNat / 4096 := toNat_vpn20Of pa
  rw [toNat_physicalOf, hframe, toNat_offsetOf]
  omega

theorem segnoOf_eq_two_iff (va : Word) : segnoOf va = 2 ↔ va.toNat / 0x40000000 = 2 := by
  have hsegno : (segnoOf va).toNat = va.toNat / 0x40000000 := by
    rw [segnoOf, BitVec.extractLsb'_toNat, Nat.shiftRight_eq_div_pow]
    omega
  rw [← hsegno, ← BitVec.toNat_inj]
  rfl

/-- Settles O21: `kernelSegment` divides the addresses at 0x8000.0000, and SEGNO the upper ones at 0xC000.0000. -/
theorem segmentsAreAddressRanges : Obligations.SegmentsAreAddressRanges := by
  intro va
  have hkernel := kernelSegment_iff va
  have hsegno := segnoOf_eq_two_iff va
  have hva := va.isLt
  rw [segmentOf]
  split_ifs with hk hs
  · rw [hkernel] at hk
    simp only [true_iff, false_iff]
    omega
  · rw [hkernel] at hk
    rw [hsegno] at hs
    simp only [true_iff, false_iff]
    omega
  · rw [hkernel] at hk
    rw [hsegno] at hs
    simp only [true_iff, false_iff]
    omega

/-! ## Translate: the mode, and accesses that are not translated -/

/-- Settles O22: the check comes first, and in physical addressing mode no other follows. -/
theorem userModeFaultsBelowTheReservedTop : Obligations.UserModeFaultsBelowTheReservedTop :=
  fun _ _ k huser => ⟨translate_user_reserved k huser, fun hm hva => translate_direct k (.inr hva) (.inl hm)⟩

/-- Settles O24: its two hypotheses are those of `translate_direct`. -/
theorem untranslatedAddressesAreDirect : Obligations.UntranslatedAddressesAreDirect :=
  fun _ _ k hdirect hmode => translate_direct k hmode hdirect

/-- What steps 3 to 10 of Translate raise without a change of the state, Translate raises with the update of rule R16. -/
theorem translateVa_raised_of_virtual {s : State} {va : Word} {k : Kind} {x : Trap} (hm : s.m = true) (hva : 0x8000 ≤ va.toNat)
    (h : translateVirtual s va k = .raised x s) : ∃ t, translateVa s va k = .raised x t ∧ OnlyR2 s t :=
  ⟨s.afterTranslate, by rw [translate_virtual k hm hva, h]; rfl, (OnlyR2.refl s).afterTranslate⟩

/-- Settles O23: the reserved part of Kseg0 is `translate_user_reserved`; above it the mode is checked before the lookup. -/
theorem userModeFaultsOnKseg0 : Obligations.UserModeFaultsOnKseg0 := by
  intro s va k hm huser hkseg0
  by_cases hva : va.toNat < 0x8000
  · exact ⟨s, translate_user_reserved k huser hva, .refl s⟩
  · refine translateVa_raised_of_virtual hm (by omega) ?_
    rw [translateVirtual, if_pos ⟨huser, (kernelSegment_iff va).2 hkseg0⟩, raise]

/-! ## Translate: no entry, and one entry -/

/-- Settles O25: the set of matching slots is empty. -/
theorem noMatchingSlotRaisesTlbMiss : Obligations.NoMatchingSlotRaisesTlbMiss := by
  intro s va k hm hva hmode hnone
  have hmatching : s.matching (vpn20Of va) s.r2.hi.asid = [] :=
    matching_eq_nil.2 fun i e hi => tlbMatch_eq_false (hnone i e hi)
  refine translateVa_raised_of_virtual hm hva ?_
  rw [translateVirtual, if_neg (not_user_and_kernelSegment hmode), hmatching]
  rfl

/-- A frame from 8 up lies above the reserved address space (rules R41, R42). -/
theorem reservedTop_le_physicalOf {pfn : BitVec 20} (o : BitVec 12) (h : 8 ≤ pfn.toNat) : 0x8000 ≤ (physicalOf pfn o).toNat := by
  rw [toNat_physicalOf]
  omega

/-- Settles O26: the entry that `oneOfSeveralMatchingSlotsDecides` gives is the only one that matches. -/
theorem theMatchingSlotDecidesTheAccess : Obligations.TheMatchingSlotDecidesTheAccess := by
  intro s va k i e hm hva hmode hi hmatch honly
  obtain ⟨j, e', t, hj, hmatch', ⟨hframe, -⟩, hinvalid, hmodification, htranslated, -⟩ :=
    oneOfSeveralMatchingSlotsDecides s va k hm hva hmode ⟨i, e, hi, hmatch⟩
  obtain rfl := honly j e' hj hmatch'
  exact ⟨t, hframe, hinvalid, hmodification,
    fun hv hd hfree => htranslated hv hd (hfree.imp_right (reservedTop_le_physicalOf (offsetOf va)))⟩

/-- Settles O57: the slot that TLBWI wrote is the one that matches, so it decides. -/
theorem anInstalledEntryTranslates : Obligations.AnInstalledEntryTranslates := by
  intro s t va k hexec hm hva hpage hv hd hother
  obtain ⟨hmode, hslot, rfl⟩ := execTlbwi_next hexec
  have hinstalled := setSlot_same s.r2 hslot
  have honly : ∀ (j : Nat) (e : Pte), (s.setSlot s.index.tlbIndex.toNat s.r2).tlb[j]? = some e →
      Matches e (va.extractLsb' 12 20) s.r2.hi.asid → e = s.r2 := by
    intro j e hj hmatch
    by_cases hji : j = s.index.tlbIndex.toNat
    · rw [hji, hinstalled] at hj
      exact (Option.some.inj hj).symm
    · rw [setSlot_other _ hji] at hj
      rw [hpage] at hmatch
      exact absurd hmatch (hother j e hji hj)
  obtain ⟨u, -, -, -, htranslated⟩ := theMatchingSlotDecidesTheAccess (s.setSlot s.index.tlbIndex.toNat s.r2) va k _ s.r2 hm hva
    (.inl hmode) hinstalled ⟨hpage.symm, .inr rfl⟩ honly
  exact ⟨u, htranslated hv hd (.inl hmode)⟩

/-! ## Translate: the kind of access (rule R63) -/

/-- A result with the kind of the access that a trap names put in its place. -/
def Res.ofKind {α : Type} (k : Kind) : Res α → Res α
  | .ok a s => .ok a s
  | .raised x s => .raised { x with kind := k } s
  | .refused r => .refused r

theorem Res.ofKind_mapState {α : Type} (k : Kind) (f : State → State) (r : Res α) :
    (r.mapState f).ofKind k = (r.ofKind k).mapState f := by cases r <;> rfl

theorem translateBy_ofKind (s : State) (va : Word) {k k' : Kind} (e : Pte) (hk : k ≠ .write) (hk' : k' ≠ .write) :
    translateBy s va k' e = (translateBy s va k e).ofKind k' := by
  have hd : k' = .write → e.lo.d = true := fun h => absurd h hk'
  rcases translateBy_cases s va k e with ⟨hv, hr⟩ | ⟨-, hwrite, -, -⟩ | ⟨hv, -, huser, hlow, hr⟩ | ⟨hv, -, hfree, hr⟩
  · rw [hr, translateBy_tlbInvalid s va k' hv]
    rfl
  · exact absurd hwrite hk
  · rw [hr, translateBy_refused s hv hd huser hlow]
    rfl
  · rw [hr, translateBy_ok s hv hd hfree]
    rfl

theorem translateVirtual_ofKind (s : State) (va : Word) {k k' : Kind} (hk : k ≠ .write) (hk' : k' ≠ .write) :
    translateVirtual s va k' = (translateVirtual s va k).ofKind k' := by
  rw [translateVirtual, translateVirtual]
  split
  · rfl
  · cases s.matching (vpn20Of va) s.r2.hi.asid with
    | nil => rfl
    | cons x xs => exact translateBy_ofKind _ va _ hk hk'

/-- Translate goes the same way for every kind that is no write: the kind shows in what is raised alone. -/
theorem translateVa_ofKind (s : State) (va : Word) {k k' : Kind} (hk : k ≠ .write) (hk' : k' ≠ .write) :
    translateVa s va k' = (translateVa s va k).ofKind k' := by
  rcases translate_cases s va k with ⟨huser, hva, hr⟩ | ⟨hmode, hdirect, hr⟩ | ⟨hm, hva, hr⟩
  · rw [hr]
    exact translate_user_reserved k' huser hva
  · rw [hr]
    exact translate_direct k' hmode hdirect
  · rw [hr, translate_virtual k' hm hva, translateVirtual_ofKind s va hk hk', Res.ofKind_mapState]

theorem Res.raised_of_mapState {α : Type} {f : State → State} {r : Res α} {x : Trap} {t : State}
    (h : r.mapState f = .raised x t) : ∃ u, r = .raised x u := by
  cases r with
  | raised y u =>
    cases h
    exact ⟨u, rfl⟩
  | ok a u => cases h
  | refused e => cases h

theorem translateVirtual_tlbModification {s t : State} {va : Word} {k : Kind} {x : Trap}
    (h : translateVirtual s va k = .raised x t) (hx : x.exc = .tlbModification) : k = .write := by
  rcases translateVirtual_cases s va k with ⟨-, -, hr⟩ | ⟨-, -, hr⟩ | ⟨-, i, e, -, -, hr⟩
  · rw [hr] at h
    cases h
    cases hx
  · rw [hr] at h
    cases h
    cases hx
  · rcases translateBy_cases { s with draws := s.draws + 1 } va k e with
      ⟨-, he⟩ | ⟨-, hwrite, -, -⟩ | ⟨-, -, -, -, he⟩ | ⟨-, -, -, he⟩
    · rw [hr, he] at h
      cases h
      cases hx
    · exact hwrite
    · rw [hr, he] at h
      cases h
    · rw [hr, he] at h
      cases h

/-- Only a write raises TLB-Modification (rule R58). -/
theorem translateVa_tlbModification {s t : State} {va : Word} {k : Kind} {x : Trap} (h : translateVa s va k = .raised x t)
    (hx : x.exc = .tlbModification) : k = .write := by
  rcases translate_cases s va k with ⟨-, -, hr⟩ | ⟨-, -, hr⟩ | ⟨-, -, hr⟩
  · rw [hr] at h
    cases h
    cases hx
  · rw [hr] at h
    cases h
  · rw [hr] at h
    obtain ⟨u, hu⟩ := Res.raised_of_mapState h
    exact translateVirtual_tlbModification hu hx

/-- Settles O29: `translateVa_ofKind` from a fetch to a read and back, and `translateVa_tlbModification`. -/
theorem fetchIsTreatedAsRead : Obligations.FetchIsTreatedAsRead := by
  intro s t va
  have hread {r : Res Word} (h : translateVa s va .fetch = r) : translateVa s va .read = r.ofKind .read := by
    rw [← h, translateVa_ofKind s va (k := .fetch) (by simp) (by simp)]
  have hfetch {r : Res Word} (h : translateVa s va .read = r) : translateVa s va .fetch = r.ofKind .fetch := by
    rw [← h, translateVa_ofKind s va (k := .read) (by simp) (by simp)]
  exact ⟨fun _ => ⟨hread, hfetch⟩, fun _ => ⟨hread, hfetch⟩, fun _ => ⟨hread, hfetch⟩,
    fun k x hk h hx => hk (translateVa_tlbModification h hx)⟩

/-! ## Translate: the slots of other address spaces -/

/-- The slots that have a part in the accesses of an address space (rule R55): the global ones and its own. -/
def Pte.visibleTo (asid : BitVec 7) (e : Pte) : Bool := e.lo.g || decide (e.hi.asid = asid)

/-- The state with another TLB. -/
def State.withTlb (l : List Pte) (s : State) : State := { s with tlb := l }

theorem filter_tlbMatch (l : List Pte) (v : BitVec 20) (a : BitVec 7) :
    l.filter (fun e => tlbMatch e v a) = (l.filter (Pte.visibleTo a)).filter (fun e => decide (e.hi.vpn20 = v)) := by
  rw [List.filter_filter]
  rfl

/-- Two TLBs with the same visible slots have the same matching entries, in the same order. -/
theorem matching_map_fst_withTlb {s : State} {l : List Pte} {v : BitVec 20} {a : BitVec 7}
    (h : l.filter (Pte.visibleTo a) = s.tlb.filter (Pte.visibleTo a)) :
    ((s.withTlb l).matching v a).map Prod.fst = (s.matching v a).map Prod.fst := by
  rw [matching_map_fst, matching_map_fst, filter_tlbMatch, filter_tlbMatch s.tlb, ← h]
  rfl

theorem afterTranslate_withTlb (l : List Pte) (s : State) : (s.withTlb l).afterTranslate = s.afterTranslate.withTlb l := by
  cases hv : s.cfg.volatility with
  | havocOnTranslate => rw [State.afterTranslate_havoc s hv, State.afterTranslate_havoc (s.withTlb l) hv]; rfl
  | stable => rw [State.afterTranslate_stable s hv, State.afterTranslate_stable (s.withTlb l) hv]

theorem mapState_afterTranslate_withTlb (l : List Pte) (r : Res Word) :
    (r.mapState (State.withTlb l)).mapState State.afterTranslate = (r.mapState State.afterTranslate).mapState (State.withTlb l) := by
  cases r with
  | ok pa s => exact congrArg (Res.ok pa) (afterTranslate_withTlb l s)
  | raised x s => exact congrArg (Res.raised x) (afterTranslate_withTlb l s)
  | refused e => rfl

/-- The checks of the entry that was drawn read no slot. -/
theorem translateBy_withTlb (l : List Pte) (s : State) (va : Word) (k : Kind) (e : Pte) :
    translateBy (s.withTlb l) va k e = (translateBy s va k e).mapState (State.withTlb l) := by
  have hmode : (s.withTlb l).mode = s.mode := rfl
  rw [translateBy, translateBy, hmode]
  split
  · rfl
  · split <;> rfl

/-- The same entry is drawn from the same matching entries, whatever their slots are. -/
theorem translateVirtual_withTlb {s : State} {l : List Pte} (va : Word) (k : Kind)
    (h : l.filter (Pte.visibleTo s.r2.hi.asid) = s.tlb.filter (Pte.visibleTo s.r2.hi.asid)) :
    translateVirtual (s.withTlb l) va k = (translateVirtual s va k).mapState (State.withTlb l) := by
  have hentries := matching_map_fst_withTlb (v := vpn20Of va) h
  have hmode : (s.withTlb l).mode = s.mode := rfl
  have hasid : (s.withTlb l).r2.hi.asid = s.r2.hi.asid := rfl
  rw [translateVirtual, translateVirtual, hmode, hasid]
  split
  · rfl
  · cases hM : s.matching (vpn20Of va) s.r2.hi.asid with
    | nil =>
      rw [hM, List.map_nil, List.map_eq_nil_iff] at hentries
      rw [hentries]
      rfl
    | cons x xs =>
      rw [hM, List.map_cons] at hentries
      obtain ⟨y, ys, hM', hy, hys⟩ := List.map_eq_cons_iff.1 hentries
      have hpick : (pick s.draws y ys).1 = (pick s.draws x xs).1 := by
        rw [← pick_map Prod.fst, ← pick_map Prod.fst, hy, hys]
      rw [hM']
      change translateBy _ va k (pick s.draws y ys).1 = (translateBy _ va k (pick s.draws x xs).1).mapState _
      rw [hpick]
      exact translateBy_withTlb l { s with draws := s.draws + 1 } va k _

/-- Translate goes the same way with another TLB that has the same visible slots. -/
theorem translateVa_withTlb {s : State} {l : List Pte} (va : Word) (k : Kind)
    (h : l.filter (Pte.visibleTo s.r2.hi.asid) = s.tlb.filter (Pte.visibleTo s.r2.hi.asid)) :
    translateVa (s.withTlb l) va k = (translateVa s va k).mapState (State.withTlb l) := by
  rcases translate_cases s va k with ⟨huser, hva, hr⟩ | ⟨hmode, hdirect, hr⟩ | ⟨hm, hva, hr⟩
  · rw [hr]
    exact translate_user_reserved k huser hva
  · rw [hr]
    exact translate_direct k hmode hdirect
  · rw [hr, translate_virtual (s := s.withTlb l) k hm hva, translateVirtual_withTlb va k h, mapState_afterTranslate_withTlb]

/-- Settles O30: s is s' with another TLB that has the same visible slots. -/
theorem otherAddressSpacesDoNotMatter : Obligations.OtherAddressSpacesDoNotMatter := by
  intro s s' va k hsame hvisible
  have hs : s = s'.withTlb s.tlb := by rw [hsame]; rfl
  have hasid : s'.r2.hi.asid = s.r2.hi.asid := by rw [hsame]
  have htrans := translateVa_withTlb (s := s') (l := s.tlb) va k (by rw [hasid]; exact hvisible.symm)
  rw [← hs] at htrans
  exact htrans.symm

/-! ## The bus: what the places of the bytes answer -/

theorem not_mem_placesOf {c : Config} {a n : Nat} {p : Place} (h : ∀ j, j < n → placeOf c (a + j) ≠ p) : p ∉ placesOf c a n := by
  rw [mem_placesOf]
  rintro ⟨j, hj, hp⟩
  exact h j hj hp

/-- Without a platform model no access below RAM is answered (rule R44). -/
theorem busCheck_busFunctions {c : Config} {a n : Nat} (w : Bool) (hknown : ∀ j, j < n → placeOf c (a + j) ≠ .nothing)
    (h : ∃ j, j < n ∧ placeOf c (a + j) = .unmodelled) : busCheck c a n w = .refused .busFunctions := by
  simp [busCheck, not_mem_placesOf hknown, mem_placesOf.2 h]

theorem busCheck_deviceAccess {c : Config} {a n : Nat} (w : Bool)
    (hknown : ∀ j, j < n → placeOf c (a + j) ≠ .nothing) (hmodelled : ∀ j, j < n → placeOf c (a + j) ≠ .unmodelled)
    (h : ∃ j, j < n ∧ placeOf c (a + j) = .device) : busCheck c a n w = .refused .deviceAccess := by
  simp [busCheck, not_mem_placesOf hknown, not_mem_placesOf hmodelled, mem_placesOf.2 h]

/-- ROM alone answers a read and has no meaning for a write (rule R44). -/
theorem busCheck_rom {c : Config} {a n : Nat} (w : Bool) (hn : 0 < n) (h : ∀ j, j < n → placeOf c (a + j) = .rom) :
    busCheck c a n w = if w then .refused .romWrite else .ok () := by
  have hrom : Place.rom ∈ placesOf c a n := mem_placesOf.2 ⟨0, hn, h 0 hn⟩
  have honly : ∀ p, p ≠ .rom → p ∉ placesOf c a n := fun p hp =>
    not_mem_placesOf fun j hj => by rw [h j hj]; exact hp.symm
  simp [busCheck, honly, hrom]

theorem placeOf_below_ram {c : Config} {a : Nat} (h : a < ramBase) : placeOf c a = busPlace c.bus a := if_pos h

theorem placeOf_ne_unmodelled {c : Config} {a : Nat} (hbus : c.bus ≠ none) : placeOf c a ≠ .unmodelled := by
  obtain ⟨rs, hrs⟩ := Option.ne_none_iff_exists'.1 hbus
  rw [placeOf, hrs, busPlace]
  repeat' split
  all_goals simp

/-- A search among the ranges that finds none (rule R47). -/
theorem placeOf_no_range {c : Config} {rs : List BusRange} {a : Nat} (hbus : c.bus = some rs) (ha : a < ramBase)
    (h : ∀ r, r ∈ rs → ¬ (r.base ≤ a ∧ a < r.base + r.size)) : placeOf c a = .nothing := by
  have hfind : rs.find? (fun r => decide (r.base ≤ a) && decide (a < r.base + r.size)) = none := by
    rw [List.find?_eq_none]
    intro r hr
    simpa using h r hr
  rw [placeOf_below_ram ha, hbus]
  simp [busPlace, hfind]

/-- The first range that holds the address decides, and ranges of one kind agree (rule R44). -/
theorem placeOf_range {c : Config} {rs : List BusRange} {a : Nat} {r : BusRange} (hbus : c.bus = some rs) (ha : a < ramBase)
    (hr : r ∈ rs) (hin : r.base ≤ a ∧ a < r.base + r.size)
    (hkind : ∀ q, q ∈ rs → q.base ≤ a → a < q.base + q.size → q.kind = r.kind) : placeOf c a = r.kind.place := by
  obtain ⟨q, hfind⟩ : ∃ q, rs.find? (fun r => decide (r.base ≤ a) && decide (a < r.base + r.size)) = some q := by
    rw [← Option.isSome_iff_exists, List.find?_isSome]
    exact ⟨r, hr, by simpa using hin⟩
  obtain ⟨hlow, hhigh⟩ : q.base ≤ a ∧ a < q.base + q.size := by simpa using List.find?_some hfind
  rw [placeOf_below_ram ha, hbus, ← hkind q (List.mem_of_find?_eq_some hfind) hlow hhigh]
  simp only [busPlace, hfind]
  cases q.kind <;> rfl

/-! ## One access, by what the bus answers -/

section Access

variable {s s1 : State} {va pa : Word} {n : Width} {k : Kind}

theorem memRead_of_busError (ha : va.toNat % n.bytes = 0) (htrans : translateVa s va k = .ok pa s1)
    (hbus : busCheck s.cfg pa.toNat n.bytes false = .busError) : memRead s va n k = .raised ⟨.busError, va, k, some pa⟩ s1 := by
  have h1 : OnlyR2 s s1 := translate_onlyR2 (by rw [htrans]; rfl)
  rw [← h1.cfg] at hbus
  simp [memRead, aligned, ha, htrans, physRead, hbus]

theorem memRead_of_refused {r : Refusal} (ha : va.toNat % n.bytes = 0) (htrans : translateVa s va k = .ok pa s1)
    (hbus : busCheck s.cfg pa.toNat n.bytes false = .refused r) : memRead s va n k = .refused r := by
  have h1 : OnlyR2 s s1 := translate_onlyR2 (by rw [htrans]; rfl)
  rw [← h1.cfg] at hbus
  simp [memRead, aligned, ha, htrans, physRead, hbus]

theorem memRead_of_answered {bs : List Byte} (ha : va.toNat % n.bytes = 0) (htrans : translateVa s va k = .ok pa s1)
    (hbus : busCheck s.cfg pa.toNat n.bytes false = .ok ()) (hmem : s.mem.readBytes pa.toNat n.bytes = some bs) :
    memRead s va n k = .ok (s.cfg.byteOrder.assemble bs) s1 := by
  have h1 : OnlyR2 s s1 := translate_onlyR2 (by rw [htrans]; rfl)
  exact memRead_eq_ok ha htrans (by rw [physRead_congr h1.cfg h1.mem, physRead_eq_ok hbus hmem])

theorem memWrite_of_busError (v : Word) (ha : va.toNat % n.bytes = 0) (htrans : translateVa s va .write = .ok pa s1)
    (hbus : busCheck s.cfg pa.toNat n.bytes true = .busError) :
    memWrite s va n v = .raised ⟨.busError, va, .write, some pa⟩ s1 := by
  have h1 : OnlyR2 s s1 := translate_onlyR2 (by rw [htrans]; rfl)
  rw [← h1.cfg] at hbus
  simp [memWrite, aligned, ha, htrans, physWrite, hbus]

theorem memWrite_of_refused {r : Refusal} (v : Word) (ha : va.toNat % n.bytes = 0) (htrans : translateVa s va .write = .ok pa s1)
    (hbus : busCheck s.cfg pa.toNat n.bytes true = .refused r) : memWrite s va n v = .refused r := by
  have h1 : OnlyR2 s s1 := translate_onlyR2 (by rw [htrans]; rfl)
  rw [← h1.cfg] at hbus
  simp [memWrite, aligned, ha, htrans, physWrite, hbus]

theorem memWrite_of_answered (v : Word) (ha : va.toNat % n.bytes = 0) (htrans : translateVa s va .write = .ok pa s1)
    (hbus : busCheck s.cfg pa.toNat n.bytes true = .ok ()) : ∃ t, memWrite s va n v = .ok () t := by
  have h1 : OnlyR2 s s1 := translate_onlyR2 (by rw [htrans]; rfl)
  rw [← h1.cfg] at hbus
  simp [memWrite, aligned, ha, htrans, physWrite, hbus]

end Access

/-- Settles O32: `busCheck_busError`, and the places from the base of RAM up. -/
theorem unidentifiedMemoryRaisesBusError : Obligations.UnidentifiedMemoryRaisesBusError := by
  refine ⟨fun s s1 va pa v n k ha hplace => ?_, fun c a => ⟨fun hlow hhigh => ?_, fun hlow htop => ?_⟩⟩
  · exact ⟨fun htrans => memRead_of_busError ha htrans (busCheck_busError.2 hplace),
      fun htrans => memWrite_of_busError v ha htrans (busCheck_busError.2 hplace)⟩
  · rw [placeOf_eq_ram.2 ⟨hlow, hhigh⟩]
    simp
  · rw [placeOf, if_neg (show ¬ a < ramBase from Nat.not_lt.2 hlow), if_neg (Nat.not_lt.2 htop)]

/-- Settles O33: the places of the bytes in each case, and what `busCheck` answers for them. -/
theorem accessesBelowRamFollowThePlatform : Obligations.AccessesBelowRamFollowThePlatform := by
  refine ⟨fun s s1 va pa v n k ha hbelow => ⟨fun hbus => ?noModel, fun hbus hknown hdevice => ?device, fun hrom => ?rom⟩,
    fun c rs a hbus ha => ⟨fun hnone => placeOf_no_range hbus ha hnone, fun r hr hlow hhigh hkind => ?range⟩⟩
  case noModel =>
    have hplace : ∀ j, j < n.bytes → placeOf s.cfg (pa.toNat + j) = .unmodelled := fun j hj => by
      rw [placeOf_below_ram (show _ < 0x7000 by omega), hbus, busPlace]
    have hcheck (w : Bool) : busCheck s.cfg pa.toNat n.bytes w = .refused .busFunctions :=
      busCheck_busFunctions w (fun j hj => by simp [hplace j hj]) ⟨0, n.bytes_pos, hplace 0 n.bytes_pos⟩
    exact ⟨fun htrans => memRead_of_refused ha htrans (hcheck false), fun htrans => memWrite_of_refused v ha htrans (hcheck true)⟩
  case device =>
    have hcheck (w : Bool) : busCheck s.cfg pa.toNat n.bytes w = .refused .deviceAccess :=
      busCheck_deviceAccess w hknown (fun _ _ => placeOf_ne_unmodelled hbus) hdevice
    exact ⟨fun htrans => memRead_of_refused ha htrans (hcheck false), fun htrans => memWrite_of_refused v ha htrans (hcheck true)⟩
  case rom =>
    exact ⟨fun htrans => memWrite_of_refused v ha htrans (busCheck_rom true n.bytes_pos hrom),
      fun htrans bs hmem => memRead_of_answered ha htrans (busCheck_rom false n.bytes_pos hrom) hmem⟩
  case range =>
    rw [placeOf_range hbus ha hr ⟨hlow, hhigh⟩ hkind]
    cases r.kind <;> rfl

/-- Settles O35: RAM answers every access, and bytes that were written have a value. -/
theorem ramAccessesComplete : Obligations.RamAccessesComplete := by
  intro s s1 va pa v n k ha hlow hhigh
  refine ⟨fun htrans => memWrite_of_answered v ha htrans (busCheck_ram true hlow hhigh), fun htrans hwritten => ?_⟩
  obtain ⟨bs, hbs⟩ := Memory.readBytes_isSome hwritten
  exact ⟨_, memRead_of_answered ha htrans (busCheck_ram false hlow hhigh) hbs⟩

/-! ## A read after a write -/

theorem physRead_physWrite_same {s t : State} {a : Nat} {n : Width} {v : Word} (h : physWrite s a n v = .ok t) :
    physRead t a n = .ok (BitVec.ofNat 32 (v.toNat % 2 ^ (8 * n.bytes))) := by
  obtain ⟨hbus, rfl⟩ := physWrite_ok h
  have hbytes := Memory.readBytes_writeBytes s.mem a (s.cfg.byteOrder.split n.bytes v)
  rw [ByteOrder.length_split] at hbytes
  have hvalue : s.cfg.byteOrder.assemble (s.cfg.byteOrder.split n.bytes v) = BitVec.ofNat 32 (v.toNat % 2 ^ (8 * n.bytes)) := by
    rw [ByteOrder.assemble_split, Nat.pow_mul]
  rw [← hvalue]
  exact physRead_eq_ok (busCheck_ok_read hbus) hbytes

theorem physRead_physWrite_disjoint {s t : State} {a b : Nat} {n m : Width} {v : Word} (h : physWrite s a n v = .ok t)
    (hdisjoint : b + m.bytes ≤ a ∨ a + n.bytes ≤ b) : physRead t b m = physRead s b m := by
  obtain ⟨-, rfl⟩ := physWrite_ok h
  have hbytes : (s.mem.writeBytes a (s.cfg.byteOrder.split n.bytes v)).readBytes b m.bytes = s.mem.readBytes b m.bytes :=
    Memory.readBytes_congr _ _ _ _ fun x hlow hhigh =>
      Memory.read_writeBytes_outside _ _ _ _ (by rw [ByteOrder.length_split]; omega)
  rw [physRead, physRead, hbytes]

/-- Settles O34: the bytes of the write, and the bytes that are none of its. -/
theorem readReturnsTheLastWrite : Obligations.ReadReturnsTheLastWrite :=
  fun _ _ _ _ _ _ _ h => ⟨physRead_physWrite_same h, physRead_physWrite_disjoint h⟩

/-- Settles O39: the second Translate leaves memory, and PhysRead at its address finds what PhysWrite at the first one's left. -/
theorem aliasesAreTheSameMemory : Obligations.AliasesAreTheSameMemory := by
  intro s t t1 va va' v pa n s1 htrans hwrite ha htrans'
  obtain ⟨-, pa', u, hu, hphys⟩ := memWrite_ok hwrite
  obtain ⟨rfl, rfl⟩ : pa = pa' ∧ s1 = u := by rw [htrans] at hu; cases hu; exact ⟨rfl, rfl⟩
  have h1 : OnlyR2 t t1 := translate_onlyR2 (by rw [htrans']; rfl)
  exact memRead_eq_ok ha htrans' (by rw [physRead_congr h1.cfg h1.mem, physRead_physWrite_same hphys])

/-! ## The step of an instruction of the table -/

/-- Settles O41: exec leaves the configuration and what CORE does next, so the pc moves by the length of the instruction. -/
theorem stepRunsTheDecodedInstruction : Obligations.StepRunsTheDecodedInstruction := by
  intro s s1 w i he hholds hfetch hdecode
  rw [step_instr he hfetch hholds hdecode]
  cases hexec : exec i s1 with
  | next u =>
    obtain ⟨-, -, -, -, -, -, -, -, hinputs, -⟩ := exec_frame hexec
    rw [advanced, State.advance, hinputs, (fetch_onlyR2 hfetch).inputs]
  | fault r => rfl
  | refused r => rfl

/-! ## User mode's reach into memory (rules R53, R61, R152) -/

/-- Two memories hold the same bytes in the reserved address space. -/
def Memory.AgreeOnReserved (m m' : Memory) : Prop := ∀ a, a < 0x8000 → m'.read a = m.read a

theorem Memory.agreeOnReserved_of_eq {m m' : Memory} (h : m' = m) : m.AgreeOnReserved m' := fun a _ => by rw [h]

/-- Where a write goes, Translate decided: in User mode never into the reserved address space. -/
theorem memWrite_user_agreeOnReserved {s t : State} {va v : Word} {n : Width} (huser : s.mode = .user)
    (h : memWrite s va n v = .ok () t) : s.mem.AgreeOnReserved t.mem := by
  obtain ⟨pa, s1, htrans, -, hother⟩ := writeChangesItsBytesAlone s t va v n h
  have hpa := translate_user_ok huser htrans
  exact fun a ha => hother a (.inl (by omega))

theorem makeRequest_user_agreeOnReserved {r : Request} {s t : State} (huser : s.mode = .user) (h : makeRequest r s = .ok () t) :
    s.mem.AgreeOnReserved t.mem := by
  rcases makeRequest_ok h with ⟨n, va, k, w, u, hread, rfl⟩ | ⟨n, va, v, -, hwrite⟩
  · have hu : OnlyR2 s u := memRead_onlyR2 (by rw [hread]; rfl)
    exact Memory.agreeOnReserved_of_eq hu.mem
  · exact memWrite_user_agreeOnReserved huser hwrite

theorem requestsOf_user_agreeOnReserved {tm : Term} {s t : State} (huser : s.mode = .user)
    (h : (requestsOf tm s).state? = some t) : s.mem.AgreeOnReserved t.mem := by
  refine requestsOf_mem (Q := s.mem.AgreeOnReserved) (fun r u v hu hbefore hr => ?_) (fun _ _ => rfl) h
  have hafter := makeRequest_user_agreeOnReserved (hu.mode.trans huser) hr
  exact fun a ha => (hafter a ha).trans (hbefore a ha)

/-- The refill and the taking of an exception write no memory (rule R130). -/
theorem deliver_mem {insn : Word} {x : Trap} {s t : State} (h : deliver insn x s = .next t) : t.mem = s.mem := by
  rcases deliver_next h with ⟨-, e, -, rfl⟩ | ⟨y, -, rfl⟩
  · rfl
  · rfl

theorem CoreMove.apply_mem (s : State) (x : CoreMove) : (x.apply s).mem = s.mem := by cases x <;> rfl

theorem StepRaises.user_agreeOnReserved {s s1 : State} {x : Trap} (huser : s.mode = .user) (h : StepRaises s x s1) :
    s.mem.AgreeOnReserved s1.mem := by
  obtain ⟨-, hfetch | ⟨w, s0, tm, hfetch, -, -, hraise⟩⟩ := h
  · have h1 : OnlyR2 s s1 := memRead_onlyR2 (by rw [← fetch, hfetch]; rfl)
    exact Memory.agreeOnReserved_of_eq h1.mem
  · have h0 := fetch_onlyR2 hfetch
    rw [← h0.mem]
    exact requestsOf_user_agreeOnReserved (h0.mode.trans huser) (by rw [hraise]; rfl)

/-- Settles O59: of all a step can do, requests alone write memory, and in User mode above the reserved address space. -/
theorem userModeNeverWritesReservedMemory : Obligations.UserModeNeverWritesReservedMemory := by
  intro s t huser h
  change s.mem.AgreeOnReserved t.mem
  rcases step_cases h with ⟨x, xs, -, -, rfl⟩ | ⟨x, s1, hraise, hdeliver⟩ | ⟨-, w, s1, tm, hfetch, -, hrun⟩
  · exact Memory.agreeOnReserved_of_eq (x.apply_mem _)
  · rw [deliver_mem hdeliver]
    exact hraise.user_agreeOnReserved huser
  · have h1 := fetch_onlyR2 hfetch
    rw [← h1.mem]
    rcases hrun with ⟨-, i, u, -, hexec, rfl⟩ | ⟨-, s2, hreq, rfl⟩ | ⟨-, rfl⟩
    · obtain ⟨hprivileged, -⟩ := exec_frame hexec
      rw [h1.mode, huser] at hprivileged
      cases hprivileged
    · exact requestsOf_user_agreeOnReserved (t := s2) (h1.mode.trans huser) (by rw [hreq]; rfl)
    · exact Memory.agreeOnReserved_of_eq rfl

end Sys2Proof.Machine

/-! PROOF. The decoder after the encoder, and a CP15 register read back after it was written. -/

namespace Sys2Proof.Machine

/-! ## DECODE after encode (rules R81, R91) -/

/-- The bytes of a row's word decode as the word does: they are as many as an instruction has, and DECODE has only words that fit
them (decision D19). -/
theorem decodeBytes_split_row {c : Config} (hc : c.wf = true) {r : DecodeRow} (hr : r ∈ c.decode) (src addr : Word) :
    decodeBytes c (c.byteOrder.split c.insnWidth.bytes r.word) src addr = decode c.decode r.word src addr := by
  obtain ⟨-, hfits⟩ := Config.wf_decode hc
  rw [decodeBytes, if_pos (ByteOrder.length_split ..), ByteOrder.assemble_split_width (hfits r hr)]

/-- Settles O53: the row that the encoder finds is the one DECODE finds under its word, so its operation comes back with its operands. -/
theorem decodeOfEncodeIsTheInstruction : Obligations.DecodeOfEncodeIsTheInstruction := by
  intro c i addr hc hi
  obtain ⟨r, hr, hop, hencode⟩ := encode_row hi
  have hdecode : decode c.decode r.word i.source addr = .term (.instr i) := by
    rw [decode_row hc hr, hop, withOperands_op]
  exact ⟨r.word, i.source, hencode, hdecode, (decodeBytes_split_row hc hr _ _).trans hdecode⟩

/-! ## A register read after its write (rules R90, R106, R107) -/

/-- The hardware's update after a write of EntryHi is of EntryLo alone (rule R16). -/
@[simp] theorem State.afterEntryHiWrite_hi (s : State) : s.afterEntryHiWrite.r2.hi = s.r2.hi := by
  cases hv : s.cfg.volatility with
  | stable => rw [s.afterEntryHiWrite_stable hv]
  | havocOnTranslate => rw [s.afterEntryHiWrite_havoc hv, State.havocLo_r2]

/-- A read of a register that stands still hands its fields to CORE, in a word of which nothing else is known (rule R106). -/
theorem execCp15read_results {s t : State} {reg : Cp15Reg} (hreg : reg ≠ .r8) (h : execCp15read reg s = .next t) :
    ∃ x, t.results = readRegister s reg x :: s.results := by
  obtain ⟨-, rfl⟩ := execCp15read_next h
  rw [s.observedFor_of_ne_r8 hreg]
  exact ⟨_, rfl⟩

/-- Settles O56: the write leaves the layouts and puts the fields of w into the register; the read places these fields by the same
layout, and fields placed by a layout that fits read back. -/
theorem registerWordsReadBack : Obligations.RegisterWordsReadBack := by
  intro s s1 s2 w reg hc hwrite hread
  obtain ⟨hhi, hlo, hindex, -, hm⟩ := Config.wf_layouts hc
  obtain ⟨-, hwrite⟩ := execCp15write_next hwrite
  have hreg : reg ≠ .r8 := by
    rintro rfl
    cases hwrite
  obtain ⟨x, hx⟩ := execCp15read_results hreg hread
  cases reg with
  | r8 => exact absurd rfl hreg
  | r1 =>
    cases hwrite
    exact ⟨_, hx, getFlag_putFlag_same x s.cfg.m _ hm⟩
  | entryHi =>
    cases hwrite
    refine ⟨_, by simpa using hx, ?_⟩
    simpa [readRegister] using hiFields_placeHi s.cfg.hi (hiFields s.cfg.hi w) x hhi
  | entryLo =>
    cases hwrite
    exact ⟨_, hx, loFields_placeLo s.cfg.lo _ x hlo⟩
  | r10 =>
    cases hwrite
    exact ⟨_, hx, indexFields_placeIndex s.cfg.index _ x hindex⟩

end Sys2Proof.Machine

/-! PROOF. The seven instructions: the TLB slots they write, what a probe reports, the register words, and their frame. -/

namespace Sys2Proof.Machine

/-! ## TLBWI, TLBWR and TLBR (rules R101 to R103) -/

/-- Settles O6: the slot that Index names is there to be written, and only the list of slots changes. -/
theorem tlbwiWritesTheIndexedSlot : Obligations.TlbwiWritesTheIndexedSlot := by
  intro s hmode hslot
  have hexec : exec .tlbwi s = .next (s.setSlot s.index.tlbIndex.toNat s.r2) :=
    (privileged_run _ hmode).trans (if_pos hslot)
  exact ⟨_, hexec, setSlot_same s.r2 hslot, fun j hj => setSlot_other s.r2 hj, rfl⟩

/-- Settles O7: the value that Random is observed to have is in its range (rule R19), so it names a slot, and not slot 0. -/
theorem tlbwrWritesOneUnsafeSlot : Obligations.TlbwrWritesOneUnsafeSlot := by
  intro s hmode hn hr
  obtain ⟨hlow, hhigh⟩ := observeRandom_randomOk hn hr
  rw [State.observeRandom_tlbSize] at hhigh
  have hslot : s.observeRandom.random.toNat < s.observeRandom.tlbSize := hhigh
  exact ⟨_, privileged_run _ hmode, hlow, Nat.le_sub_one_of_lt hhigh, setSlot_same s.r2 hslot,
    fun j hj => setSlot_other s.r2 hj, rfl⟩

/-- Settles O8: the index is below the number of slots, so the look-up that TLBR makes finds an entry. -/
theorem tlbrLoadsTheIndexedSlot : Obligations.TlbrLoadsTheIndexedSlot := by
  intro s hmode hslot
  have hentry : s.tlb[s.index.tlbIndex.toNat]? = some s.tlb[s.index.tlbIndex.toNat] := List.getElem?_eq_getElem hslot
  refine ⟨_, hentry, (privileged_run _ hmode).trans ?_⟩
  rw [hentry]

/-! ## TLBP (rule R104) -/

@[simp] theorem State.probed_draws (s : State) (l : List (Pte × Nat)) : (s.probed l).draws = s.draws + 1 := by rw [State.probed_eq]

/-- A probe for which no slot matches sets P. -/
theorem State.probed_nil_p (s : State) : (s.probed []).index.p = true := rfl

/-- A probe for which slots match clears P. -/
theorem State.probed_cons_p (s : State) (x : Pte × Nat) (xs : List (Pte × Nat)) : (s.probed (x :: xs)).index.p = false := rfl

/-- The number that a probe reports is that of the slot drawn, when it fits the six bits of Index.TLBIndex. -/
theorem State.probed_cons_tlbIndex (s : State) {x : Pte × Nat} {xs : List (Pte × Nat)} (h : (pick s.draws x xs).2 < 64) :
    (s.probed (x :: xs)).index.tlbIndex.toNat = (pick s.draws x xs).2 :=
  (BitVec.toNat_ofNat _ 6).trans (Nat.mod_eq_of_lt h)

/-- A TLB of at most 64 slots, in which slots match: the probe reports one of them. -/
theorem probed_matching {s : State} {v : BitVec 20} {a : BitVec 7} (hn : s.tlbSize ≤ 64) (h : s.matching v a ≠ []) :
    (s.probed (s.matching v a)).index.p = false ∧
      ∃ e, s.tlb[(s.probed (s.matching v a)).index.tlbIndex.toNat]? = some e ∧ Matches e v a := by
  obtain ⟨x, xs, hM⟩ := List.exists_cons_of_ne_nil h
  obtain ⟨hslot, hmatch⟩ := mem_matching.1 (hM ▸ pick_mem s.draws x xs)
  have hlt : (pick s.draws x xs).2 < s.tlbSize := (List.getElem?_eq_some_iff.1 hslot).1
  rw [hM, State.probed_cons_tlbIndex s (Nat.lt_of_lt_of_le hlt hn)]
  exact ⟨s.probed_cons_p x xs, _, hslot, tlbMatch_iff.1 hmatch⟩

/-- Settles O10: the set of matching slots has a member, and the probe reports one, or it is empty, and the probe sets P. -/
theorem tlbpReportsAMatchingSlot : Obligations.TlbpReportsAMatchingSlot := by
  intro s hmode ⟨_, hn⟩
  refine ⟨_, privileged_run _ hmode, ?_, fun ⟨i, e, hi, hmatch⟩ => ?_, fun hnone => ?_⟩
  · rw [State.probed_draws]
    exact s.probed_eq _
  · exact probed_matching hn (List.ne_nil_of_mem (mem_matching.2 ⟨hi, tlbMatch_iff.2 hmatch⟩ : (e, i) ∈ _))
  · rw [matching_eq_nil.2 fun i e hi => tlbMatch_eq_false (hnone i e hi)]
    exact s.probed_nil_p

/-! ## TLBCLR (rule R105) -/

/-- Settles O11: the slots that are not slot 0 hold the zero entry. -/
theorem tlbclrZeroesTheUnsafeSlots : Obligations.TlbclrZeroesTheUnsafeSlots := by
  intro s hmode
  exact ⟨_, privileged_run _ hmode, clearUnsafe_zero s.tlb,
    fun i hlow hhigh => ⟨zeroPte, clearUnsafe_unsafe hlow hhigh, rfl, rfl, rfl, rfl, rfl, rfl⟩,
    length_clearUnsafe s.tlb, rfl⟩

/-- A zeroed entry maps page 0, which is reserved: no address that is translated lies in it (rules R42, R51). -/
theorem not_matches_zeroPte {va : Word} (h : 0x8000 ≤ va.toNat) (a : BitVec 7) : ¬ Matches zeroPte (vpn20Of va) a := by
  rintro ⟨hpage, -⟩
  have hzero : va.toNat / 4096 = 0 := by rw [← toNat_vpn20Of, ← hpage]; rfl
  omega

/-- A slot after TLBCLR: slot 0 as it was, or a zeroed one. -/
theorem clearUnsafe_cases {l : List Pte} {i : Nat} {e : Pte} (h : (clearUnsafe l)[i]? = some e) :
    l[0]? = some e ∨ e = zeroPte := by
  by_cases hi : i = 0
  · rw [hi, clearUnsafe_zero] at h
    exact .inl h
  · have hlt := (List.getElem?_eq_some_iff.1 h).1
    rw [length_clearUnsafe] at hlt
    rw [clearUnsafe_unsafe (Nat.one_le_iff_ne_zero.2 hi) hlt] at h
    exact .inr (Option.some.inj h).symm

/-- Settles O58: no slot that TLBCLR leaves matches the page, so that `noMatchingSlotRaisesTlbMiss` holds of it. -/
theorem afterTlbclrOnlyTheSafeSlotTranslates : Obligations.AfterTlbclrOnlyTheSafeSlotTranslates := by
  intro s t va k hexec hm hva hsafe
  obtain ⟨hmode, rfl⟩ := execTlbclr_next hexec
  obtain ⟨u, hu, -⟩ := noMatchingSlotRaisesTlbMiss { s with tlb := clearUnsafe s.tlb } va k hm hva (.inl hmode) fun i e hi => by
    rcases clearUnsafe_cases hi with hkept | rfl
    · exact hsafe e hkept
    · exact not_matches_zeroPte hva _
  exact ⟨u, hu⟩

/-! ## CP15READ and CP15WRITE (rules R106, R107) -/

/-- A read of a CP15 register completes in Privileged mode: it hands CORE the register in a word of draws, and moves Random only where it
observes it. -/
theorem exec_cp15read {s : State} (reg : Cp15Reg) (hmode : s.mode = .privileged) :
    ∃ x t, exec (.cp15read reg) s = .next t ∧
      t = { s with results := readRegister (s.observedFor reg) reg x :: s.results, random := (s.observedFor reg).random,
                   draws := t.draws } := by
  refine ⟨BitVec.ofNat 32 (Config.free (s.observedFor reg).draws), _, privileged_run _ hmode, ?_⟩
  cases reg <;> rfl

/-- Settles O12: the fields of each register read back from the word they were placed in; those of R8 are what Random was observed to
be. -/
theorem cp15ReadGivesTheRegisterFields : Obligations.Cp15ReadGivesTheRegisterFields := by
  intro s reg hmode hc hn hr
  obtain ⟨hhi, hlo, hindex, hrandom, hm⟩ := Config.wf_layouts hc
  obtain ⟨x, t, hexec, ht⟩ := exec_cp15read reg hmode
  have hobserved : t.random = (s.observedFor reg).random := by rw [ht]
  refine ⟨t, _, hexec, by rwa [hobserved], ?_⟩
  cases reg with
  | r1 => exact ⟨getFlag_putFlag_same x s.cfg.m s.m hm, hobserved⟩
  | entryHi => exact ⟨hiFields_placeHi s.cfg.hi s.r2.hi x hhi, hobserved⟩
  | entryLo => exact ⟨loFields_placeLo s.cfg.lo s.r2.lo x hlo, hobserved⟩
  | r8 =>
    have hfield : getField (readRegister s.observeRandom .r8 x) s.cfg.random 6 = s.observeRandom.random :=
      getField_putField_same x s.cfg.random s.observeRandom.random hrandom
    obtain ⟨hlow, hhigh⟩ := observeRandom_randomOk hn hr
    rw [← hfield] at hlow hhigh
    exact ⟨hlow, Nat.le_sub_one_of_lt hhigh⟩
  | r10 => exact ⟨indexFields_placeIndex s.cfg.index s.index x hindex, hobserved⟩

/-- The hardware's update after a write of EntryHi changes CP15.R2 and the count of draws alone (rule R16). -/
theorem State.afterEntryHiWrite_eq (s : State) :
    s.afterEntryHiWrite = { s with r2 := s.afterEntryHiWrite.r2, draws := s.afterEntryHiWrite.draws } := by
  cases hv : s.cfg.volatility with
  | stable => rw [s.afterEntryHiWrite_stable hv]
  | havocOnTranslate =>
    rw [s.afterEntryHiWrite_havoc hv]
    rfl

/-- Under R2_VOLATILITY = stable a write of EntryHi leaves EntryLo (rule R16). -/
theorem State.afterEntryHiWrite_lo {s : State} (h : s.cfg.volatility = .stable) : s.afterEntryHiWrite.r2.lo = s.r2.lo := by
  rw [s.afterEntryHiWrite_stable h]

/-- Settles O13: each write takes the fields that `hiFields`, `loFields` and `indexFields` name, and after that of EntryHi the hardware
has its update. -/
theorem cp15WriteSetsTheRegisterFields : Obligations.Cp15WriteSetsTheRegisterFields := by
  intro s w hmode
  have hexec : ∀ reg, exec (.cp15write reg w) s = writeRegister s reg w := fun _ => privileged_run _ hmode
  exact ⟨hexec .r1, ⟨_, hexec .entryHi, State.afterEntryHiWrite_eq _, State.afterEntryHiWrite_hi _,
    fun hstable => State.afterEntryHiWrite_lo hstable⟩, hexec .entryLo, hexec .r10, hexec .r8⟩

/-! ## The frame (rules R100 c and d) -/

@[simp] theorem State.probed_results (s : State) (l : List (Pte × Nat)) : (s.probed l).results = s.results := by
  rw [State.probed_eq]

/-- Only CP15READ hands CORE a word (rule R106). -/
theorem exec_results {i : Instr} {s t : State} (h : exec i s = .next t) (hi : ∀ reg, i ≠ .cp15read reg) :
    t.results = s.results := by
  cases i with
  | tlbwi =>
    obtain ⟨-, -, rfl⟩ := execTlbwi_next h
    rfl
  | tlbwr =>
    obtain ⟨-, rfl⟩ := execTlbwr_next h
    rfl
  | tlbr =>
    obtain ⟨-, e, -, rfl⟩ := execTlbr_next h
    rfl
  | tlbp =>
    obtain ⟨-, rfl⟩ := execTlbp_next h
    exact State.probed_results s _
  | tlbclr =>
    obtain ⟨-, rfl⟩ := execTlbclr_next h
    rfl
  | cp15read reg => exact absurd rfl (hi reg)
  | cp15write reg w =>
    obtain ⟨-, hwrite⟩ := execCp15write_next h
    cases reg with
    | r8 => cases hwrite
    | r1 | entryHi | entryLo | r10 =>
      cases hwrite
      simp

/-- Settles O15: `exec_frame` says what no instruction of the table touches, and `exec_results` which one hands CORE a word. -/
theorem cp15InstructionsTouchNoMemory : Obligations.Cp15InstructionsTouchNoMemory := by
  intro i s t h
  obtain ⟨-, hcfg, hpc, hcpsr, hmem, htrap, hsource, haddress, hinputs, hsize⟩ := exec_frame h
  exact ⟨fun a => by rw [hmem], hpc, hcpsr, hcfg, htrap, hsource, haddress, hinputs, hsize, exec_results h⟩

end Sys2Proof.Machine

/-! PROOF. The refill: where it looks, what it answers for each result of its search, and what it leaves; a miss delivered, and the
translation state in User mode. -/

namespace Sys2Proof.Machine

/-! ## The Segment Table (rules R123, R125) -/

/-- The place of an address's segment in a row of the Segment Table, by the ranges of the addresses (rule R50). -/
theorem segmentNumber_segmentOf (va : Word) :
    segmentNumber (segmentOf va) = if va.toNat < 0x80000000 then 0 else if va.toNat < 0xC0000000 then 1 else 2 := by
  obtain ⟨hkseg0, huseg2, huseg3⟩ := segmentsAreAddressRanges va
  split_ifs with hlow hmiddle
  · rw [hkseg0.2 (by omega), segmentNumber]
  · rw [huseg2.2 ⟨by omega, by omega⟩, segmentNumber]
  · rw [huseg3.2 (by omega), segmentNumber]

theorem refillSearch_of_tableOf {s : State} {va t : Word} (h : TableOf s va t) :
    refillSearch s va = searchTable s t.toNat (vpn20Of va) := by simp only [refillSearch, h]

/-! ## What the refill answers for each result of its search (rules R126, R128, R130) -/

theorem refill_of_badTable {s : State} {va : Word} (k : Kind) (h : refillSearch s va = .ok .badTable) :
    refill s va k = .raised ⟨.badPgTbl, va, k, none⟩ s := by simp only [refill, h]

theorem refill_of_noEntry {s : State} {va : Word} (k : Kind) (h : refillSearch s va = .ok .noEntry) :
    refill s va k = .raised ⟨.pteMiss, va, k, none⟩ s := by simp only [refill, h]

theorem refill_of_entry {s : State} {va : Word} {e : Pte} (k : Kind) (h : refillSearch s va = .ok (.entry e)) :
    refill s va k = .ok () (s.loadEntry e) := by simp only [refill, h]

theorem refill_of_busError {s : State} {va : Word} (k : Kind) (h : refillSearch s va = .busError) :
    refill s va k = .refused .refillReadOutsideMemory := by simp only [refill, h]

theorem physRead_busError {s : State} {a : Nat} {n : Width} (h : ∃ j, j < n.bytes ∧ placeOf s.cfg (a + j) = .nothing) :
    physRead s a n = .busError := by simp only [physRead, busCheck_busError.2 h]

/-- Settles O49: the first two clauses by `segmentNumber_segmentOf`; a read of the row that raises BUSERROR ends the search. -/
theorem segmentTableOutsideMemoryIsRefused : Obligations.SegmentTableOutsideMemoryIsRefused := by
  refine ⟨fun base asid va => ?rows, fun listed asid va a hlisted => ?listed, fun s va k houtside => ?refused⟩
  case rows =>
    rw [segTableAddress, segmentNumber_segmentOf]
    split_ifs <;> rfl
  case listed =>
    rw [segTableAddress, segmentNumber_segmentOf, List.getD_eq_getElem?_getD, hlisted, Option.getD_some]
  case refused =>
    have hread := physRead_busError (n := .word) houtside
    exact refill_of_busError k (by simp only [refillSearch, hread])

/-! ## A Page Table that fails a check (rule R126) -/

/-- The checks c1, c2 and c2a: the Page Table does not stand, aligned and with its header, in RAM above the reserved address space. -/
theorem searchTable_misplaced {s : State} {t : Nat} (v : BitVec 20)
    (h : ¬ (reservedTop < t ∧ t % 4 = 0 ∧ t + 4 ≤ s.cfg.ramTop)) : searchTable s t v = .ok .badTable := by
  rw [searchTable, if_pos h]

/-- The checks c3 and c4: the header has another magic number, or counts entries beyond RAM. -/
theorem searchTable_badHeader {s : State} {t : Nat} {h : Word} (v : BitVec 20) (hread : physRead s t .word = .ok h)
    (hbad : ¬ (headerMagic h = pgTblMagic ∧ t + pgTblSize (headerCount h) < s.cfg.ramTop)) :
    searchTable s t v = .ok .badTable := by
  by_cases hplace : reservedTop < t ∧ t % 4 = 0 ∧ t + 4 ≤ s.cfg.ramTop
  · simp only [searchTable, if_neg (not_not.2 hplace), hread, if_pos hbad]
  · exact searchTable_misplaced v hplace

/-- Settles O46: each failed check is one of `searchTable_misplaced` or of `searchTable_badHeader`. -/
theorem badPageTablesAreReported : Obligations.BadPageTablesAreReported := by
  intro s va t k htable hfails
  refine refill_of_badTable k ((refillSearch_of_tableOf htable).trans ?_)
  rcases hfails with hreserved | halign | htop | ⟨h, hread, hheader⟩
  · exact searchTable_misplaced _ fun ⟨habove, _, _⟩ => Nat.not_lt.2 hreserved habove
  · exact searchTable_misplaced _ fun ⟨_, haligned, _⟩ => halign haligned
  · exact searchTable_misplaced _ fun ⟨_, _, hbelow⟩ => Nat.not_lt.2 hbelow htop
  · refine searchTable_badHeader _ hread fun ⟨hmagic, hsize⟩ => ?_
    rcases hheader with hother | hbeyond
    · exact hother hmagic
    · exact Nat.not_lt.2 hbeyond hsize

/-! ## The search (rules R127, R128) -/

/-- The search takes the first row that matches: those before it are passed over, and those after it are not read. -/
theorem searchRows_first {s : State} {t : Word} {v : BitVec 20} {n j : Nat} {e : Pte} (hj : j < n)
    (hbefore : ∀ i, i < j → ∃ r, RowIs s t i r ∧ ¬ Matches r v s.r2.hi.asid)
    (hrow : RowIs s t j e) (hmatch : Matches e v s.r2.hi.asid) : searchRows s t.toNat v n 0 = .ok (some e) := by
  obtain ⟨left, rfl⟩ : ∃ left, n = j + (left + 1) := ⟨n - j - 1, by omega⟩
  rw [searchRows_skip j (left + 1) 0 (by simpa using hbefore), Nat.zero_add]
  simp only [searchRows, readRow_of hrow, tlbMatch_iff.2 hmatch, if_true]

theorem searchRows_none {s : State} {t : Word} {v : BitVec 20} {n : Nat}
    (h : ∀ i, i < n → ∃ r, RowIs s t i r ∧ ¬ Matches r v s.r2.hi.asid) : searchRows s t.toNat v n 0 = .ok none := by
  have hskip := searchRows_skip n 0 0 (by simpa using h)
  rwa [Nat.add_zero] at hskip

/-- The slot that the refill writes is one that Random may name (rule R19), and it holds the entry afterwards. -/
theorem loadEntry_slot {s : State} (e : Pte) (hn : s.TlbSizeOk) (hr : s.RandomOk) :
    1 ≤ (s.loadEntry e).random.toNat ∧ (s.loadEntry e).random.toNat ≤ s.tlbSize - 1 ∧
      (s.loadEntry e).tlb[(s.loadEntry e).random.toNat]? = some e := by
  obtain ⟨hlow, hhigh⟩ := observeRandom_randomOk hn hr
  rw [State.observeRandom_tlbSize] at hhigh
  exact ⟨hlow, Nat.le_sub_one_of_lt hhigh, setSlot_same (s := s) e hhigh⟩

/-- Settles O47: the search finds the row, and the refill loads what it finds. -/
theorem refillLoadsTheFirstMatchingRow : Obligations.RefillLoadsTheFirstMatchingRow := by
  intro s va t h k j e hn hr htable hgood hj hbefore hrow hmatch
  have hsearch : refillSearch s va = .ok (.entry e) :=
    (refillSearch_of_tableOf htable).trans (searchTable_entry hgood (searchRows_first hj hbefore hrow hmatch))
  obtain ⟨hlow, hhigh, hslot⟩ := loadEntry_slot e hn hr
  exact ⟨s.loadEntry e, refill_of_entry k hsearch, hlow, hhigh, hslot, fun i hi => setSlot_other (s := s) e hi⟩

/-- Settles O48: the search passes over every row. -/
theorem refillWithoutAMatchRaisesPteMiss : Obligations.RefillWithoutAMatchRaisesPteMiss := by
  intro s va t h k htable hgood hnone
  exact refill_of_noEntry k
    ((refillSearch_of_tableOf htable).trans (searchTable_noEntry hgood (searchRows_none hnone)))

/-! ## What the refill leaves, and the access that is tried again (rules R129, R130) -/

/-- Settles O50: a refill that completes is `State.loadEntry` of the entry found, and one that raises leaves the state. -/
theorem refillLeavesTheRest : Obligations.RefillLeavesTheRest := by
  refine fun s t va k x => ⟨fun hok => ?loaded, fun hraised => ?raised⟩
  case loaded =>
    obtain ⟨e, hfound, rfl⟩ := refill_ok hok
    exact ⟨⟨e, hfound, s.loadEntry_tlb e⟩, s.loadEntry_random e, rfl, s.loadEntry_asid e, s.loadEntry_tlbSize e⟩
  case raised =>
    obtain ⟨hstate, ⟨-, rfl⟩ | ⟨-, rfl⟩⟩ := refill_raised hraised
    · exact ⟨hstate, .inl rfl, rfl, rfl⟩
    · exact ⟨hstate, .inr rfl, rfl, rfl⟩

theorem translateVirtual_tlbMiss {s t : State} {va : Word} {k : Kind} {x : Trap}
    (h : translateVirtual s va k = .raised x t) (hx : x.exc = .tlbMiss) : s.matching (vpn20Of va) s.r2.hi.asid = [] := by
  rcases translateVirtual_cases s va k with ⟨-, -, hr⟩ | ⟨-, hnone, -⟩ | ⟨-, i, e, -, -, hr⟩
  · rw [hr] at h
    cases h
    cases hx
  · exact hnone
  · rcases translateBy_cases { s with draws := s.draws + 1 } va k e with
      ⟨-, he⟩ | ⟨-, -, -, he⟩ | ⟨-, -, -, -, he⟩ | ⟨-, -, -, he⟩
    all_goals rw [hr, he] at h; cases h
    all_goals cases hx

/-- Translate raises TLB-Miss only where no slot matches (rule R56). -/
theorem translateVa_tlbMiss {s t : State} {va : Word} {k : Kind} {x : Trap} (h : translateVa s va k = .raised x t)
    (hx : x.exc = .tlbMiss) : s.matching (vpn20Of va) s.r2.hi.asid = [] := by
  rcases translate_cases s va k with ⟨-, -, hr⟩ | ⟨-, -, hr⟩ | ⟨-, -, hr⟩
  · rw [hr] at h
    cases h
    cases hx
  · rw [hr] at h
    cases h
  · rw [hr] at h
    obtain ⟨u, hu⟩ := Res.raised_of_mapState h
    exact translateVirtual_tlbMiss hu hx

/-- Settles O51: the slot that was loaded matches the page under the ASID that stayed. -/
theorem aRefilledAccessDoesNotMiss : Obligations.ARefilledAccessDoesNotMiss := by
  intro s t u va k k' x hn hr hrefill hraised hmiss
  obtain ⟨e, hfound, rfl⟩ := refill_ok hrefill
  obtain ⟨-, -, hslot⟩ := loadEntry_slot e hn hr
  have hno := matching_eq_nil.1 (translateVa_tlbMiss hraised hmiss) _ e hslot
  rw [State.loadEntry_asid, refillSearch_matches hfound] at hno
  cases hno

/-! ## The delivery of an exception (rules R145, R146) -/

theorem deliver_of_ne_tlbMiss {insn : Word} {x : Trap} {s : State} (hx : x.exc ≠ .tlbMiss) :
    deliver insn x s = .next (s.takeException x) := by rw [deliver, if_neg hx]

/-- What a refill raises is taken in place of the TLB-Miss. -/
theorem deliver_of_refill_raised {insn : Word} {x y : Trap} {s t : State} (hx : x.exc = .tlbMiss)
    (h : refill s x.va x.kind = .raised y t) : deliver insn x s = .next (t.takeException y) := by
  simp only [deliver, if_pos hx, h]

theorem deliver_of_refill_refused {insn : Word} {x : Trap} {s : State} {r : Refusal} (hx : x.exc = .tlbMiss)
    (h : refill s x.va x.kind = .refused r) : deliver insn x s = .refused r := by
  simp only [deliver, if_pos hx, h]

/-- Settles O44: the step delivers what it raises, after memory requests alone, and a trapped state goes no further. -/
theorem anExceptionEndsTheRun : Obligations.AnExceptionEndsTheRun := by
  intro s s1 x hraise
  obtain ⟨hreq, hstep⟩ := hraise.deliver
  rw [hstep]
  exact ⟨hreq.pc, hraise.nothingStands, hreq.tlb, deliver_of_ne_tlbMiss,
    fun hx hbad => deliver_of_refill_raised hx (refill_of_badTable x.kind hbad),
    fun hx hnone => deliver_of_refill_raised hx (refill_of_noEntry x.kind hnone),
    fun r hx hrefused => deliver_of_refill_refused hx hrefused, fun y => rfl⟩

/-! ## User mode and the translation state (rules R100 e, R152) -/

/-- A state that is about to make a move of CORE executes no instruction. -/
theorem not_executes_of_move {s : State} {x : CoreMove} {xs : List CoreInput} (h : s.inputs = .move x :: xs) : ¬ s.Executes := by
  rintro ⟨-, hat⟩
  rw [h] at hat
  cases hat

theorem CoreMove.apply_translationState (s : State) (x : CoreMove) :
    (x.apply s).m = s.m ∧ (x.apply s).index = s.index ∧ (x.apply s).r2 = s.r2 := by cases x <;> exact ⟨rfl, rfl, rfl⟩

/-- In User mode no instruction of the table completes (decision D18), so a step is a move of CORE, or memory requests alone, after
which an instruction completes, an exception is taken, or a TLB-Miss is refilled and its instruction resumed. -/
theorem step_user_cases {s t : State} (huser : s.mode = .user) (h : step s = .next t) :
    (∃ x xs, s.inputs = .move x :: xs ∧ t = x.apply { s with inputs := xs }) ∨
    (∃ u, OnlyRequests s u ∧ (t = u.advance ∨ ∃ y, t = u.takeException y)) ∨
    (∃ x u e, StepRaises s x u ∧ OnlyRequests s u ∧ x.exc = .tlbMiss ∧ refillSearch u x.va = .ok (.entry e) ∧
      t = (u.loadEntry e).resume s.pc) := by
  rcases step_cases h with ⟨x, xs, -, hinputs, rfl⟩ | ⟨x, u, hraise, hdeliver⟩ | ⟨-, w, s1, tm, hfetch, -, hrun⟩
  · exact .inl ⟨x, xs, hinputs, rfl⟩
  · obtain ⟨hreq, -⟩ := hraise.deliver
    rcases deliver_next hdeliver with ⟨hmiss, e, hfound, rfl⟩ | ⟨y, -, rfl⟩
    · exact .inr (.inr ⟨x, u, e, hraise, hreq, hmiss, hfound, rfl⟩)
    · exact .inr (.inl ⟨u, hreq, .inr ⟨y, rfl⟩⟩)
  · have h1 := fetch_onlyR2 hfetch
    rcases hrun with ⟨-, i, u, -, hexec, -⟩ | ⟨-, s2, hreq, rfl⟩ | ⟨-, rfl⟩
    · obtain ⟨hprivileged, -⟩ := exec_frame hexec
      rw [h1.mode, huser] at hprivileged
      cases hprivileged
    · exact .inr (.inl ⟨s2, h1.requests.trans (requestsOf_onlyRequests (by rw [hreq]; rfl)), .inl rfl⟩)
    · exact .inr (.inl ⟨s1, h1.requests, .inl rfl⟩)

/-- Settles O60: neither requests, nor the end of an instruction, nor an exception taken touches a slot or a register of translation but
CP15.R2, whose ASID stays; the refill writes one slot, and not slot 0. -/
theorem userModeLeavesTheTranslationState : Obligations.UserModeLeavesTheTranslationState := by
  intro s t hn hr huser h
  rcases step_user_cases huser h with ⟨x, xs, hinputs, rfl⟩ | ⟨u, hreq, rfl | ⟨y, rfl⟩⟩ | ⟨x, u, e, hraise, hreq, hmiss, hfound, rfl⟩
  · obtain ⟨hm, hindex, hr2⟩ := x.apply_translationState { s with inputs := xs }
    have htlb := x.apply_tlb { s with inputs := xs }
    exact ⟨hm, hindex, by rw [hr2], by rw [htlb], fun hexecutes => absurd hexecutes (not_executes_of_move hinputs), .inl htlb⟩
  · exact ⟨hreq.m, hreq.index, hreq.2, congrArg (·[0]?) hreq.tlb, fun _ => hreq.cpsr, .inl hreq.tlb⟩
  · exact ⟨hreq.m, hreq.index, hreq.2, congrArg (·[0]?) hreq.tlb, fun _ => hreq.cpsr, .inl hreq.tlb⟩
  · have htlb : ((u.loadEntry e).resume s.pc).tlb = s.tlb.set (u.loadEntry e).random.toNat e := by
      rw [← hreq.tlb]
      rfl
    have hzero := set_observed_slot_zero (hreq.tlbSizeOk hn) (hreq.randomOk hr) e
    rw [hreq.tlb] at hzero
    exact ⟨hreq.m, hreq.index, hreq.2, by rw [htlb]; exact hzero, fun _ => hreq.cpsr,
      .inr ⟨x, u, e, hraise, hmiss, hfound, htlb⟩⟩

end Sys2Proof.Machine

/-! PROOF. Exceptions: what an access raises and for which address, the requests that stand when a later one raises, and the instruction
that a refill sends back to its start. -/

namespace Sys2Proof.Machine

/-! ## What an access raises (rules R143, R144) -/

theorem memRead_of_translate_raised {s t : State} {va : Word} {n : Width} {k : Kind} {x : Trap} (ha : va.toNat % n.bytes = 0)
    (h : translateVa s va k = .raised x t) : memRead s va n k = .raised x t := by
  simp [memRead, aligned, ha, h]

theorem memWrite_of_translate_raised {s t : State} {va : Word} {n : Width} {x : Trap} (v : Word) (ha : va.toNat % n.bytes = 0)
    (h : translateVa s va .write = .raised x t) : memWrite s va n v = .raised x t := by
  simp [memWrite, aligned, ha, h]

/-- Settles O38: an aligned access hands on what Translate raises, and never comes to the bus. -/
theorem accessesRaiseWhatTranslateRaises : Obligations.AccessesRaiseWhatTranslateRaises :=
  fun _ _ _ v _ _ _ ha => ⟨memRead_of_translate_raised ha, memWrite_of_translate_raised v ha⟩

theorem translateBy_raised_va {s t : State} {va : Word} {k : Kind} {e : Pte} {x : Trap} (h : translateBy s va k e = .raised x t) :
    x.va = va := by
  rcases translateBy_cases s va k e with ⟨-, hr⟩ | ⟨-, -, -, hr⟩ | ⟨-, -, -, -, hr⟩ | ⟨-, -, -, hr⟩
  all_goals rw [hr] at h; cases h
  all_goals rfl

theorem translateVirtual_raised_va {s t : State} {va : Word} {k : Kind} {x : Trap} (h : translateVirtual s va k = .raised x t) :
    x.va = va := by
  rcases translateVirtual_cases s va k with ⟨-, -, hr⟩ | ⟨-, -, hr⟩ | ⟨-, i, e, -, -, hr⟩
  · rw [hr] at h
    cases h
    rfl
  · rw [hr] at h
    cases h
    rfl
  · rw [hr] at h
    exact translateBy_raised_va h

/-- Whatever Translate raises, it raises for the address it was given (rule R142). -/
theorem translateVa_raised_va {s t : State} {va : Word} {k : Kind} {x : Trap} (h : translateVa s va k = .raised x t) :
    x.va = va := by
  rcases translate_cases s va k with ⟨-, -, hr⟩ | ⟨-, -, hr⟩ | ⟨-, -, hr⟩
  · rw [hr] at h
    cases h
    rfl
  · rw [hr] at h
    cases h
  · rw [hr] at h
    obtain ⟨u, hu⟩ := Res.raised_of_mapState h
    exact translateVirtual_raised_va hu

theorem memRead_raised_va {s t : State} {va : Word} {n : Width} {k : Kind} {x : Trap} (h : memRead s va n k = .raised x t) :
    x.va = va := by
  obtain ⟨-, htrans | ⟨pa, -, -, rfl⟩⟩ := memRead_raised h
  · exact translateVa_raised_va htrans
  · rfl

theorem memWrite_raised_va {s t : State} {va v : Word} {n : Width} {x : Trap} (h : memWrite s va n v = .raised x t) :
    x.va = va := by
  obtain ⟨-, htrans | ⟨pa, -, -, rfl⟩⟩ := memWrite_raised h
  · exact translateVa_raised_va htrans
  · rfl

/-! ## The requests before the one that raises -/

/-- Where no request is to stand, the state that a raise leaves has the memory and the words of CORE that were given at the start. -/
theorem makeRequests_raised_none_stand {s u t : State} {before : List Request} {r : Request} {x : Trap} (after : List Request)
    (mem : Memory) (results : List Word) (hbefore : Makes s before u) (hraise : makeRequest r u = .raised x t) :
    makeRequests (before ++ r :: after) 0 mem results s = .raised x { t with mem := mem, results := results } := by
  induction before generalizing s with
  | nil =>
    obtain rfl : u = s := hbefore
    simp only [List.nil_append, makeRequests, hraise]
  | cons b before ih =>
    obtain ⟨s1, hb, hrest⟩ := hbefore
    simp only [List.cons_append, makeRequests, hb]
    exact ih hrest

/-- Each request that is to stand hands its memory and its words of CORE on to the rest; those after it go by
`makeRequests_raised_none_stand`. -/
theorem makeRequests_raised_stands {s u v t : State} {before : List Request} {r : Request} {x : Trap} (after : List Request)
    {stands : Nat} (hbefore : Makes s before u) (hraise : makeRequest r u = .raised x t) (hstand : Makes s (before.take stands) v) :
    makeRequests (before ++ r :: after) stands s.mem s.results s = .raised x { t with mem := v.mem, results := v.results } := by
  induction before generalizing s stands with
  | nil =>
    obtain rfl : u = s := hbefore
    obtain rfl : v = u := by simpa only [List.take_nil, Makes] using hstand
    simp only [List.nil_append, makeRequests, hraise]
  | cons b before ih =>
    cases stands with
    | zero =>
      obtain rfl : v = s := hstand
      exact makeRequests_raised_none_stand after _ _ hbefore hraise
    | succ stands =>
      obtain ⟨s1, hb, hrest⟩ := hbefore
      obtain ⟨s2, hb', hstand'⟩ := hstand
      obtain rfl : s1 = s2 := by
        rw [hb] at hb'
        cases hb'
        rfl
      simp only [List.cons_append, makeRequests, hb]
      exact ih hrest hstand'

/-- Settles O40: an access that raises changes CP15.R2 alone and names its own address, and of the requests before it those stand that
`makeRequests_raised_stands` says. -/
theorem exceptionsArePrecise : Obligations.ExceptionsArePrecise := by
  refine ⟨fun s t va v n k x h => ?access, fun s u v t before after r stands x hbefore hraise hstand =>
    makeRequests_raised_stands after hbefore hraise hstand⟩
  case access =>
    obtain ⟨hr2, hva⟩ : OnlyR2 s t ∧ x.va = va := by
      rcases h with hread | hwrite
      · exact ⟨memRead_onlyR2 (by rw [hread]; rfl), memRead_raised_va hread⟩
      · exact ⟨memWrite_raised_onlyR2 hwrite, memWrite_raised_va hwrite⟩
    exact ⟨hr2.1, hr2.2, hva, fun a => by rw [hr2.mem]⟩

/-! ## The instruction that missed (rule R148) -/

/-- A TLB-Miss whose refill finds an entry is served, and its instruction resumed. -/
theorem deliver_of_entry {insn : Word} {x : Trap} {s : State} {e : Pte} (hx : x.exc = .tlbMiss)
    (h : refillSearch s x.va = .ok (.entry e)) : deliver insn x s = .next ((s.loadEntry e).resume insn) := by
  simp only [deliver, if_pos hx, refill_of_entry x.kind h]

theorem StepRaises.executes {s s1 : State} {x : Trap} (h : StepRaises s x s1) : s.Executes := h.1

/-- Requests leave what CORE does next, and end no run. -/
theorem OnlyRequests.executes {s t : State} (h : OnlyRequests s t) (he : s.Executes) : t.Executes := by
  rwa [State.Executes, h.trap, h.inputs]

/-- Settles O45: before the refill memory requests alone were made; the refill loads an entry and the pc goes back to the instruction,
which CORE is still executing. -/
theorem aServedMissIsRetried : Obligations.AServedMissIsRetried := by
  intro s s1 x e hraise hmiss hfound
  obtain ⟨hreq, hstep⟩ := hraise.deliver
  rw [deliver_of_entry hmiss hfound] at hstep
  have hagain : ((s1.loadEntry e).resume s.pc).Executes := hreq.executes hraise.executes
  exact ⟨_, hstep, rfl, hreq.cpsr, hreq.m, hreq.2, rfl, hreq.index, rfl, hraise.nothingStands, hreq.inputs, step_executes hagain⟩

end Sys2Proof.Machine

/-! PROOF. What a reset forgets, the outcomes without a meaning (User mode, an index that is no slot, a misaligned address, an unknown
word), and the stand-in words. -/

namespace Sys2Proof.Machine

/-! ## Reset (rules R170, R171) -/

/-- Settles O2: of the former state the reset event takes the count of draws alone, and the state it gives has an empty memory. -/
theorem resetLosesTheFormerState : Obligations.ResetLosesTheFormerState :=
  fun c _ _ hdraws => ⟨congrArg (State.resetWith c) hdraws, rfl, fun _ => rfl⟩

/-! ## The instructions that stop (rules R100 e, R101, R103) -/

/-- Settles O14: the meaning of each instruction stands behind `privileged`. -/
theorem userModeGivesCp15InstructionsNoMeaning : Obligations.UserModeGivesCp15InstructionsNoMeaning := by
  intro i s huser
  cases i with
  | tlbwi | tlbwr | tlbr | tlbp | tlbclr | cp15read | cp15write => exact privileged_user _ huser

/-- Settles O9: TLBWI checks the index against TLBSIZE, and the look-up of TLBR finds no entry. -/
theorem anIndexThatIsNoSlotIsRefused : Obligations.AnIndexThatIsNoSlotIsRefused := by
  intro s hmode hslot
  have hentry : s.tlb[s.index.tlbIndex.toNat]? = none := List.getElem?_eq_none hslot
  refine ⟨(privileged_run _ hmode).trans (if_neg (Nat.not_lt.2 hslot)), (privileged_run _ hmode).trans ?_⟩
  rw [hentry]

/-! ## Misaligned accesses (rule R65) -/

/-- Settles O31: the alignment check comes before all else, for an access of every kind. -/
theorem misalignedAccessesAreRefused : Obligations.MisalignedAccessesAreRefused := by
  intro s va v n k hva
  have haligned : aligned va n = false := decide_eq_false hva
  exact ⟨if_pos haligned, if_pos haligned⟩

/-! ## Unknown words and the stand-in words (rules R80, R91) -/

/-- DECODE rejects a word that no row of its table has. -/
theorem decode_of_no_row {table : List DecodeRow} {insn : Word} (h : ∀ r, r ∈ table → r.word ≠ insn) (src addr : Word) :
    decode table insn src addr = .undecodable := by
  have hfind : table.find? (fun r => decide (r.word = insn)) = none :=
    List.find?_eq_none.2 fun r hr => by simpa using h r hr
  simp only [decode, hfind]

/-- A step that fetches a word which DECODE rejects is refused. -/
theorem step_undecodable {s s1 : State} {w : Word} (he : s.Executes) (hfetch : fetch s = .ok w s1)
    (hdecode : decode s.cfg.decode w s.source s.address = .undecodable) : step s = .refused .undecodable := by
  rw [step_executes he]
  simp only [runInstruction, hfetch, hdecode]

/-- Settles O54: DECODE finds no row for the word, and the step hands its rejection on. -/
theorem unknownWordsAreRefused : Obligations.UnknownWordsAreRefused := by
  intro s s1 w hno
  have hdecode := decode_of_no_row hno s.source s.address
  exact ⟨hdecode, fun he hfetch => step_undecodable he hfetch hdecode⟩

/-- Settles O55: the standard configuration's rows, evaluated. -/
theorem standardWordsDecode : Obligations.StandardWordsDecode := by
  unfold Obligations.StandardWordsDecode
  decide

end Sys2Proof.Machine
